-- ==== Sys2Proof/Word.lean ====
section
/-! DEFINITION. The scalar types of the spec: u8, u32 and u64 (00_scope §5). All values are unsigned. -/

namespace Sys2Proof

/-- `u8`. -/
abbrev Byte := BitVec 8

/-- `u32`: an accumulator word, a command word, a host data word (R7). -/
abbrev Word := BitVec 32

/-- `u64`: the byte count of a DigestState (R12). -/
abbrev Count := BitVec 64

end Sys2Proof
end

