-- ==== Sys2Proof/Machine/Bytes.lean ====
section
/-! DEFINITION. Byte orders, block bytes and bit fields: the notation of 00_scope §5, shared by the decoder, the
window, the compression engine and the serializer. Every byte order of this hardware is little-endian (R33, R34). -/

namespace Sys2Proof

/-- `v[hi:lo]` as an unsigned number, for a field of `n` bits at `lo` (00_scope §5, bit numbering). -/
def bitField (v : Word) (lo n : Nat) : Nat := (v.toNat >>> lo) % 2 ^ n

/-- `le32(B, i)` (00_scope §5): the u32 whose least-significant byte is at the lowest index. Every use lies inside
its array, so the default of `getD` is never taken. -/
def le32 (B : List Byte) (i : Nat) : Word :=
  (B.getD i 0).setWidth 32 ||| (B.getD (i + 1) 0).setWidth 32 <<< 8
    ||| (B.getD (i + 2) 0).setWidth 32 <<< 16 ||| (B.getD (i + 3) 0).setWidth 32 <<< 24

/-- `le64(B, i)` (00_scope §5). -/
def le64 (B : List Byte) (i : Nat) : Count :=
  (le32 B i).setWidth 64 ||| (le32 B (i + 4)).setWidth 64 <<< 32

/-- `bytes_le32(w)` (00_scope §5): the four bytes of a word, lowest first. -/
def bytesLe32 (w : Word) : List Byte :=
  [w.setWidth 8, (w >>> 8).setWidth 8, (w >>> 16).setWidth 8, (w >>> 24).setWidth 8]

/-- `bytes_le64(v)` (00_scope §5). -/
def bytesLe64 (v : Count) : List Byte :=
  bytesLe32 (v.setWidth 32) ++ bytesLe32 ((v >>> 32).setWidth 32)

/-- A block: 64 bytes, the unit the compression function consumes, and the size of a DigestState's buffer (R7). -/
abbrev Block := Vector Byte 64

/-- The block of the first 64 bytes of a byte sequence. The controller applies it to whole 64-byte windows and blobs,
so the default of `getD` is never taken. -/
def blockOf (m : List Byte) : Block := ⟨((List.range 64).map (fun i => m.getD i 0)).toArray, by simp⟩

/-- `B[i ..] <- m`: the bytes of `m` written into a block from index `i` on. -/
def blockWrite (B : Block) (i : Nat) : List Byte → Block
  | [] => B
  | x :: xs => blockWrite (B.setIfInBounds i x) (i + 1) xs

/-- `zeros(64)`: the fresh buffer (R11). -/
def zeroBlock : Block := blockOf []

end Sys2Proof
end

