-- ==== Sys2Proof/Syntax.lean ====
section
/-! DEFINITION. The commands: one constructor per row of spec/opcode_table.json (R44). A command is this hardware's
instruction (00_scope §6, "command"). -/

namespace Sys2Proof

/-- A command with its operands. OFF and LEN are unsigned, unscaled integers (R43), held as natural numbers; their
13-bit range is checked in `Instr.wellFormed`. -/
inductive Instr where
  /-- INIT (R65): reinitialise the live state. -/
  | init
  /-- UPDATE off, len (R66): absorb `len` bytes of CHUNK from `off`. -/
  | update (off len : Nat)
  /-- PEEK (R68): publish the digest of the input absorbed so far. -/
  | peek
  /-- EXPORT (R77): serialize LIVE into XFER. -/
  | exportState
  /-- RESTORE len (R78): replace LIVE with the state serialized in XFER. -/
  | restore (len : Nat)
  /-- COMPARE len (R79): test LIVE for equality with the state serialized in XFER. -/
  | compare (len : Nat)
deriving DecidableEq, Repr

end Sys2Proof
end

