-- ==== Sys2Proof/WellFormed.lean ====
section
/-! DEFINITION. What a command must satisfy to have an encoding: each operand fits its 13-bit field (R42, R43). The
operands' values are otherwise not checked at decode (R45). -/

namespace Sys2Proof

/-- The operand fits a 13-bit field: "Each ranges over 0 to 8191" (R43). -/
def fitsField (n : Nat) : Bool := decide (n < 8192)

/-- Every operand of the command fits its field (R42, R43). -/
def Instr.wellFormed : Instr → Bool
  | .init => true
  | .update off len => fitsField off && fitsField len
  | .peek => true
  | .exportState => true
  | .restore len => fitsField len
  | .compare len => fitsField len

end Sys2Proof
end

