-- ==== Sys2Proof/Decode.lean ====
section
/-! DEFINITION. The decoder of command words (R41 to R48), total on all words and on any bytes, rejecting by name; and
after it the encoder, written from the same field table (R42) and opcode map (R44). -/

namespace Sys2Proof

/-- Why a word is illegal, in the order of the decoder's checks (R46; R85 checks 1 to 3). The engine reports each of
them as the one code ILLEGAL_COMMAND. -/
inductive IllegalCause where
  /-- OP is not one of the assigned opcodes 0x1 to 0x6. -/
  | opcode
  /-- RSV is not 0. -/
  | reserved
  /-- An OFF or LEN field that must be 0 is not. -/
  | mustBeZero
deriving DecidableEq, Repr

/-- What the decoder makes of a word: exactly one command, or ILLEGAL_COMMAND (R46). -/
inductive Decoded where
  | command (i : Instr)
  | illegal (why : IllegalCause)
deriving DecidableEq, Repr

/-- OP = w[31:28] (R42). -/
def fieldOp (w : Word) : Nat := bitField w 28 4
/-- RSV = w[27:26] (R42). -/
def fieldRsv (w : Word) : Nat := bitField w 26 2
/-- OFF = w[25:13], zero-extended (R42, R43). -/
def fieldOff (w : Word) : Nat := bitField w 13 13
/-- LEN = w[12:0], zero-extended (R42, R43). -/
def fieldLen (w : Word) : Nat := bitField w 0 13

/-- `i`, unless a field that must be 0 is not (R45, R46). -/
def requireZero (field : Nat) (i : Instr) : Decoded :=
  if field ≠ 0 then .illegal .mustBeZero else .command i

/-- The decode of a written word, before any state is touched (R46). -/
def decodeWord (w : Word) : Decoded :=
  if fieldOp w = 0 ∨ 6 < fieldOp w then .illegal .opcode
  else if fieldRsv w ≠ 0 then .illegal .reserved
  else if fieldOp w = 1 then requireZero (fieldOff w + fieldLen w) .init
  else if fieldOp w = 2 then .command (.update (fieldOff w) (fieldLen w))
  else if fieldOp w = 3 then requireZero (fieldOff w + fieldLen w) .peek
  else if fieldOp w = 4 then requireZero (fieldOff w + fieldLen w) .exportState
  else if fieldOp w = 5 then requireZero (fieldOff w) (.restore (fieldLen w))
  else requireZero (fieldOff w) (.compare (fieldLen w))

/-- What the decoder makes of a byte sequence: the command of its first four bytes (little-endian, as the bus lays a
word out: R33) and the bytes after it, or a rejection by name. -/
inductive DecodedBytes where
  | command (i : Instr) (rest : List Byte)
  | illegal (why : IllegalCause)
  /-- Fewer than four bytes: no command word (DESIGN CHOICE, log entry 12; CMD itself takes whole words only, R35). -/
  | truncated
deriving DecidableEq, Repr

/-- The decoder on bytes: one length, so the first four bytes are the word (R41). -/
def decodeBytes (bytes : List Byte) : DecodedBytes :=
  match bytes with
  | b0 :: b1 :: b2 :: b3 :: rest =>
    match decodeWord (le32 [b0, b1, b2, b3] 0) with
    | .command i => .command i rest
    | .illegal why => .illegal why
  | _ => .truncated

/-- `w = OP << 28 | RSV << 26 | OFF << 13 | LEN`, with RSV = 0 (R42). -/
def encodeFields (op off len : Nat) : Word :=
  BitVec.ofNat 32 op <<< 28 ||| BitVec.ofNat 32 off <<< 13 ||| BitVec.ofNat 32 len

/-- The word of a well-formed command (R42, R44, R50). -/
def encode : Instr → Word
  | .init => encodeFields 1 0 0
  | .update off len => encodeFields 2 off len
  | .peek => encodeFields 3 0 0
  | .exportState => encodeFields 4 0 0
  | .restore len => encodeFields 5 0 len
  | .compare len => encodeFields 6 0 len

/-- One row of the opcode map: `(w & mask) == match` selects it (R44). -/
structure OpcodeRow where
  mnemonic : String
  matchBits : Word
  mask : Word
deriving DecidableEq, Repr

/-- The opcode map as spec/opcode_table.json and R44 print it. The decoder does not read it; statements compare the
two. -/
def opcodeMap : List OpcodeRow :=
  [ ⟨"INIT", 0x10000000, 0xFFFFFFFF⟩,
    ⟨"UPDATE", 0x20000000, 0xFC000000⟩,
    ⟨"PEEK", 0x30000000, 0xFFFFFFFF⟩,
    ⟨"EXPORT", 0x40000000, 0xFFFFFFFF⟩,
    ⟨"RESTORE", 0x50000000, 0xFFFFE000⟩,
    ⟨"COMPARE", 0x60000000, 0xFFFFE000⟩ ]

/-- The row selects the word (R44). -/
def OpcodeRow.selects (r : OpcodeRow) (w : Word) : Bool := w &&& r.mask == r.matchBits

/-- The command's mnemonic in spec/opcode_table.json. -/
def Instr.mnemonic : Instr → String
  | .init => "INIT"
  | .update _ _ => "UPDATE"
  | .peek => "PEEK"
  | .exportState => "EXPORT"
  | .restore _ => "RESTORE"
  | .compare _ => "COMPARE"

/-- The word whose bits are `w`, numbered as spec/opcode_table.json numbers them; bits from `nbits` on are 0. -/
def tableWord (nbits w : Nat) : Word := BitVec.ofNat 32 (w % 2 ^ nbits)

/-- The command the decoder reads from a word of spec/opcode_table.json, laid out in bytes as the bus lays it out
(R33). -/
def decodeTableWord (nbits w : Nat) : Option Instr :=
  match decodeBytes (bytesLe32 (tableWord nbits w)) with
  | .command i _ => some i
  | .illegal _ => none
  | .truncated => none

end Sys2Proof
end

