-- ==== Sys2Proof/Config.lean ====
section
/-! DEFINITION. The parameters of this hardware (R7) and the one free value of the model. -/

namespace Sys2Proof

/-- CHUNK_BYTES: the size of the CHUNK RAM. 93_implementation_defined U18: a parameter; "This hardware takes 4096". -/
def Config.chunkBytes : Nat := 4096

/-- BLOB_BYTES: the size of a serialized state and of the XFER RAM (R7, R75). -/
def Config.blobBytes : Nat := 92

/-- The size of the host window (R7, R29). -/
def Config.windowBytes : Nat := 8192

/-- Window offset of XFER[0] (R31). -/
def Config.xferBase : Nat := 0x0100

/-- Window offset of CHUNK[0] (R31). -/
def Config.chunkBase : Nat := 0x1000

/-- FREE VALUE (DESIGN CHOICE, log entries 2 and 3): what the RAM byte at a window offset holds while neither the host
nor EXPORT has written it since the hardware reset numbered by the first argument. R16, R17 and R100: "A model takes
the value as a draw". It has no body, so no claim can rest on its value. -/
opaque Config.ramPowerOn : Nat → Nat → Byte

end Sys2Proof
end

