-- ==== Sys2Proof/Machine/State.lean ====
section
/-! DEFINITION. The state of one engine (R8) with the host operations it has yet to serve, as plain data; the two ways
the model stops; and the state right after hardware reset (R96). -/

namespace Sys2Proof.Machine

/-- The accumulator 4-tuple `words[0..3]`, which the glossary calls A, B, C, D (R9, R10). The working values of the
compression function (R15) have the same shape. -/
structure Words where
  a : Word
  b : Word
  c : Word
  d : Word
deriving DecidableEq, Repr

/-- A DigestState: the triple (words, buffer, count) (R10 to R12, R14). -/
structure DigestState where
  words : Words
  /-- Its first `count mod 64` bytes are input not yet compressed; the rest is stale (R11). -/
  buffer : Block
  /-- Bytes absorbed, modulo 2^64 (R12). -/
  count : Count
deriving DecidableEq, Repr

/-- IV: the MD5 initialization constants, in order (R10). -/
def initialWords : Words := ⟨0x67452301, 0xefcdab89, 0x98badcfe, 0x10325476⟩

/-- The fresh DigestState: IV, a buffer of zeros, count 0 (R10, R11, R12). -/
def DigestState.fresh : DigestState := ⟨initialWords, zeroBlock, 0⟩

/-- The bytes of CHUNK and XFER that the host or EXPORT has written since the last hardware reset, keyed by window
offset, offsets strictly rising. An unlisted offset reads as NO byte here; what the machine then reads is the free
value of `State.ramByte` (log entries 2 and 4). -/
abbrev Memory := List Host.Cell

/-- The one canonical form of `Memory`: offsets strictly rising. An unlisted offset reads as no byte, so no entry can
equal what an unlisted offset reads as. -/
abbrev Memory.wf (m : Memory) : Prop := m.Pairwise fun x y => x.1 < y.1

/-- One operation of the host (R102): a window read or write of `size` bytes at a window offset (R32), or the hardware
reset (R96). A command is issued by a 4-byte write to CMD (R37). The size is any number: the engine answers a size
other than 1, 2 or 4 with a bus error (R32). -/
inductive HostOp where
  | read (off size : Nat)
  | write (off size : Nat) (value : Word)
  | reset
deriving DecidableEq, Repr

/-- What the engine answered to the last host operation. MODEL'S OWN (DESIGN CHOICE, log entry 8): the host bus is
not state of the engine, but a read's data must be held to be spoken of. -/
inductive Response where
  /-- Nothing: no operation since the model's start, or the operation was a hardware reset. -/
  | none
  /-- A write was accepted (R35), or the command it issued has completed or faulted (R37). -/
  | accepted
  /-- The data of a read, zero-extended to the bus width (R33). -/
  | data (value : Word)
  /-- A host bus error (R32, R35, R90). -/
  | busError
  /-- The access was at an offset of 0x2000 or more and did not reach this engine (R30, log entry 9). -/
  | notReached
deriving DecidableEq, Repr

/-- Why the machine stops with a fault. No COMMAND does: an engine fault (R82) is a next state (R84, R89). -/
inductive Fault where
  /-- Raised by `step` alone, when no host operation is left: "Its run ends when the last operation has been
  performed" (R102). Safe: the model stops where the spec says the run has ended (log entry 7). -/
  | endOfRun
deriving DecidableEq, Repr

/-- Why an instruction is refused. -/
inductive Refusal where
  /-- Raised by an arm of `exec` whose instruction has no meaning yet; no arm does. Safe: nothing is claimed of it. -/
  | notModelled (mnemonic : String)
deriving DecidableEq, Repr

/-- The whole state. R8: "One engine holds exactly this state"; the last four fields are the model's own. -/
structure State where
  /-- LIVE, the live DigestState (R10 to R13). -/
  live : DigestState
  /-- FIN, the finalize snapshot (R14). -/
  fin : DigestState
  /-- CHUNK and XFER (R16, R17). -/
  ram : Memory
  /-- DIGEST[0..15] (R18). -/
  digest : Vector Byte 16
  /-- HEX[0..31] (R18). -/
  hex : Vector Byte 32
  /-- STATUS.ERR (R21, R22). -/
  err : BitVec 4
  /-- STATUS.DVALID (R23). -/
  dvalid : Bool
  /-- STATUS.EQ (R24). -/
  eq : Bool
  /-- STATUS.FAULTSEEN (R25). -/
  faultSeen : Bool
  /-- MODEL'S OWN: the host operations not yet performed, oldest first (R19, R102; log entry 5). -/
  pending : List HostOp
  /-- MODEL'S OWN: the index of the next host operation (R19; log entry 6). -/
  pc : Nat
  /-- MODEL'S OWN: the answer to the last host operation (log entry 8). -/
  response : Response
  /-- MODEL'S OWN: the counter that `Config.ramPowerOn` is applied to, advanced by each hardware reset (log entry 3). -/
  ramDraw : Nat
deriving DecidableEq, Repr

/-- The machine right after hardware reset (R96), with no host operation waiting. FIN is zero by DESIGN CHOICE (log
entry 1); no RAM byte is listed, so each is a free value (log entry 2). -/
def State.reset : State where
  live := DigestState.fresh
  fin := ⟨⟨0, 0, 0, 0⟩, zeroBlock, 0⟩
  ram := []
  digest := Vector.replicate 16 0
  hex := Vector.replicate 32 0
  err := 0
  dvalid := false
  eq := false
  faultSeen := false
  pending := []
  pc := 0
  response := .none
  ramDraw := 0

end Sys2Proof.Machine
end

