-- ==== Sys2Proof/Machine/Compression.lean ====
section
/-! DEFINITION. The compression engine `md5_compress` (40_compression, R52 to R62). -/

namespace Sys2Proof.Machine

/-- `rotl32(x, s)` for 1 ≤ s ≤ 31 (00_scope §5). -/
def rotl32 (x : Word) (s : Nat) : Word := x <<< s ||| x >>> (32 - s)

/-- F, round 1 (R54). -/
def roundF (x y z : Word) : Word := (x &&& y) ||| (~~~x &&& z)
/-- G, round 2 (R54). -/
def roundG (x y z : Word) : Word := (x &&& z) ||| (y &&& ~~~z)
/-- H, round 3 (R54). -/
def roundH (x y z : Word) : Word := x ^^^ y ^^^ z
/-- I, round 4 (R54). -/
def roundI (x y z : Word) : Word := y ^^^ (x ||| ~~~z)

/-- The round function of step `i`: F, G, H, I for `i div 16` = 0, 1, 2, 3 (R58). -/
def roundFn (i : Nat) (x y z : Word) : Word :=
  if i < 16 then roundF x y z
  else if i < 32 then roundG x y z
  else if i < 48 then roundH x y z
  else roundI x y z

/-- T[0..15], the fixed ROM of additive constants (R55, R59). -/
def tRom1 : List Word :=
  [0xd76aa478, 0xe8c7b756, 0x242070db, 0xc1bdceee, 0xf57c0faf, 0x4787c62a, 0xa8304613, 0xfd469501,
   0x698098d8, 0x8b44f7af, 0xffff5bb1, 0x895cd7be, 0x6b901122, 0xfd987193, 0xa679438e, 0x49b40821]
/-- T[16..31] (R59). -/
def tRom2 : List Word :=
  [0xf61e2562, 0xc040b340, 0x265e5a51, 0xe9b6c7aa, 0xd62f105d, 0x02441453, 0xd8a1e681, 0xe7d3fbc8,
   0x21e1cde6, 0xc33707d6, 0xf4d50d87, 0x455a14ed, 0xa9e3e905, 0xfcefa3f8, 0x676f02d9, 0x8d2a4c8a]
/-- T[32..47] (R59). -/
def tRom3 : List Word :=
  [0xfffa3942, 0x8771f681, 0x6d9d6122, 0xfde5380c, 0xa4beea44, 0x4bdecfa9, 0xf6bb4b60, 0xbebfbc70,
   0x289b7ec6, 0xeaa127fa, 0xd4ef3085, 0x04881d05, 0xd9d4d039, 0xe6db99e5, 0x1fa27cf8, 0xc4ac5665]
/-- T[48..63] (R59). -/
def tRom4 : List Word :=
  [0xf4292244, 0x432aff97, 0xab9423a7, 0xfc93a039, 0x655b59c3, 0x8f0ccc92, 0xffeff47d, 0x85845dd1,
   0x6fa87e4f, 0xfe2ce6e0, 0xa3014314, 0x4e0811a1, 0xf7537e82, 0xbd3af235, 0x2ad7d2bb, 0xeb86d391]

/-- T[i] (R55, R59). -/
def additive (i : Nat) : Word := (tRom1 ++ tRom2 ++ tRom3 ++ tRom4).getD i 0

/-- The rotate amounts of the round of step `i` (R56). -/
def rotateRow (i : Nat) : List Nat :=
  if i < 16 then [7, 12, 17, 22]
  else if i < 32 then [5, 9, 14, 20]
  else if i < 48 then [4, 11, 16, 23]
  else [6, 10, 15, 21]

/-- s(i): it depends on the round and on `i mod 4` (R56). -/
def rotateAmount (i : Nat) : Nat := (rotateRow i).getD (i % 4) 0

/-- k(i), with j = i mod 16 (R57). -/
def messageIndex (i : Nat) : Nat :=
  let j := i % 16
  if i < 16 then j
  else if i < 32 then (1 + 5 * j) % 16
  else if i < 48 then (5 + 3 * j) % 16
  else (7 * j) % 16

/-- The message schedule X[0..15] of a block, each word little-endian (R53). -/
def schedule (B : Block) : List Word := (List.range 16).map fun j => le32 B.toList (4 * j)

/-- One operation on the working values (R58): new (a, b, c, d) = (d, b', b, c). -/
def md5Step (X : List Word) (i : Nat) (v : Words) : Words :=
  let t := v.a + roundFn i v.b v.c v.d + X.getD (messageIndex i) 0 + additive i
  ⟨v.d, v.b + rotl32 t (rotateAmount i), v.b, v.c⟩

/-- The working values after steps 0 to n - 1 (R59's loop). -/
def md5Steps (X : List Word) (v : Words) : Nat → Words
  | 0 => v
  | n + 1 => md5Step X n (md5Steps X v n)

/-- Word-wise addition modulo 2^32 (R60, R61). -/
def Words.add (v w : Words) : Words := ⟨v.a + w.a, v.b + w.b, v.c + w.c, v.d + w.d⟩

/-- `md5_compress(W, B)`: four rounds of 16 operations, then the feed-forward (R52, R59, R60). -/
def md5Compress (W : Words) (B : Block) : Words := W.add (md5Steps (schedule B) W 64)

end Sys2Proof.Machine
end

