-- ==== Sys2Proof/Machine/Ops.lean ====
section
/-! DEFINITION. The named operations over the RAMs and the registers, and the one way a command faults. -/

namespace Sys2Proof.Machine

/-! ## The RAMs -/

/-- The byte listed at an offset, if one is. -/
def Memory.find (a : Nat) : Memory → Option Byte
  | [] => none
  | (b, v) :: m => if a = b then some v else Memory.find a m

/-- Store one byte, keeping the offsets strictly rising. -/
def Memory.store (a : Nat) (v : Byte) : Memory → Memory
  | [] => [(a, v)]
  | (b, u) :: m =>
    if a < b then (a, v) :: (b, u) :: m
    else if a = b then (a, v) :: m
    else (b, u) :: Memory.store a v m

/-- Store bytes at successive offsets. -/
def Memory.storeBytes (m : Memory) (a : Nat) : List Byte → Memory
  | [] => m
  | v :: vs => (m.store a v).storeBytes (a + 1) vs

/-- The RAM byte at a window offset: the byte last stored there, or the unspecified reset content (R35), a free value
(log entry 2). -/
def State.ramByte (s : State) (a : Nat) : Byte :=
  (s.ram.find a).getD (Config.ramPowerOn s.ramDraw a)

/-- `n` RAM bytes from a window offset on. -/
def State.ramBytes (s : State) (a : Nat) : Nat → List Byte
  | 0 => []
  | n + 1 => s.ramByte a :: s.ramBytes (a + 1) n

/-- Write RAM bytes from a window offset on. -/
def State.writeRam (s : State) (a : Nat) (v : List Byte) : State :=
  { s with ram := s.ram.storeBytes a v }

/-- `MemRead(CHUNK, off, n)` (00_scope §5). -/
def State.readChunk (s : State) (off n : Nat) : List Byte := s.ramBytes (Config.chunkBase + off) n

/-- `MemRead(XFER, 0, 92)` (00_scope §5, R76). -/
def State.readXfer (s : State) : List Byte := s.ramBytes Config.xferBase Config.blobBytes

/-- `MemWrite(XFER, 0, 92, v)` (00_scope §5, R77). -/
def State.writeXfer (s : State) (v : List Byte) : State := s.writeRam Config.xferBase v

/-! ## Ending a command -/

/-- The engine faults (R82). -/
inductive EngineFault where
  | illegalCommand
  | precondition
  | malformedState
deriving DecidableEq, Repr

/-- The code a fault puts in STATUS.ERR (R82). -/
def faultCode : EngineFault → BitVec 4
  | .illegalCommand => 1
  | .precondition => 2
  | .malformedState => 3

/-- The fault effect, this hardware's whole "exception entry": ERR <- code and FAULTSEEN <- 1, "and writes nothing
else" (R84). It transfers control nowhere (R88), and there is no return from it: "After a fault the engine accepts the
next command normally" (R89). -/
def State.raiseFault (s : State) (f : EngineFault) : State :=
  { s with err := faultCode f, faultSeen := true }

/-- "A command that completes writes 0" to STATUS.ERR (R22). -/
def State.complete (s : State) : State := { s with err := 0 }

/-- A command whose checks answer a value goes on with it; one whose checks fail has the fault effect alone (R84:
"Every check of a command precedes every write of that command"). -/
def State.checked {α : Type} (s : State) (checks : Except EngineFault α) (body : α → State) : State :=
  match checks with
  | .ok x => body x
  | .error f => s.raiseFault f

/-! ## Host operations -/

/-- Take the oldest host operation off the sequence: "each host operation advances it by one" (R19). -/
def State.takeOp (s : State) (rest : List HostOp) : State :=
  { s with pending := rest, pc := s.pc + 1 }

/-- Record the engine's answer to the host. -/
def State.respond (s : State) (r : Response) : State := { s with response := r }

/-- Hardware reset (R96): every piece of engine state at its reset value. It is one operation of the host's sequence,
so the sequence stands. The RAMs are unspecified again: nothing is listed, under a fresh draw (log entry 3). -/
def State.hardwareReset (s : State) : State :=
  { State.reset with pending := s.pending, pc := s.pc, ramDraw := s.ramDraw + 1 }

end Sys2Proof.Machine
end

