-- ==== Sys2Proof/Machine/Flags.lean ====
section
/-! DEFINITION. The STATUS word (R21) and the flag computations of the commands (R22 to R26). -/

namespace Sys2Proof.Machine

/-- A flag as a one-bit field at its place in STATUS. -/
def flagBit (b : Bool) (pos : Nat) : Word := (BitVec.ofBool b).setWidth 32 <<< pos

/-- `count mod 64`: the length of a DigestState's valid buffer prefix (R11). -/
def DigestState.index (S : DigestState) : Nat := S.count.toNat % 64

/-- The STATUS word (R21): ERR 3:0, DVALID 8, EQ 9, FAULTSEEN 10, BUFCNT 21:16 read live from LIVE.count; every other
bit reads 0. -/
def State.status (s : State) : Word :=
  s.err.setWidth 32 ||| flagBit s.dvalid 8 ||| flagBit s.eq 9 ||| flagBit s.faultSeen 10
    ||| BitVec.ofNat 32 s.live.index <<< 16

/-- DVALID after an UPDATE of `len` bytes: cleared when `len > 0`, else unchanged (R23, R66). -/
def dvalidAfterUpdate (len : Nat) (dvalid : Bool) : Bool := if 0 < len then false else dvalid

/-- The result of COMPARE: words, all 64 buffer bytes (stale ones included) and count are equal (R79). -/
def sameDigestState (S T : DigestState) : Bool :=
  S.words == T.words && S.buffer.toList == T.buffer.toList && S.count == T.count

end Sys2Proof.Machine
end

