-- ==== Sys2Proof/Machine/Absorb.lean ====
section
/-! DEFINITION. The absorb procedure (R63), shared by UPDATE on LIVE and PEEK on FIN, split into the blocks it
compresses (R64: their number is the cost that R101 counts) and the bytes it leaves in the buffer. -/

namespace Sys2Proof.Machine

/-- The first `k` successive 64-byte windows of a byte sequence. -/
def windows (m : List Byte) : Nat → List Block
  | 0 => []
  | k + 1 => blockOf m :: windows (m.drop 64) k

/-- `part` of R63: the bytes that fill the buffer. -/
def DigestState.room (S : DigestState) : Nat := 64 - S.index

/-- The buffer filled by the head of the chunk (R63, step 2). -/
def DigestState.filled (S : DigestState) (m : List Byte) : Block :=
  blockWrite S.buffer S.index (m.take S.room)

/-- The blocks that `absorb(S, m)` compresses, in order: none while the buffer is not filled; else the filled buffer,
then the whole 64-byte windows of the rest, straight from the chunk (R63). -/
def absorbedBlocks (S : DigestState) (m : List Byte) : List Block :=
  if S.room ≤ m.length then S.filled m :: windows (m.drop S.room) ((m.length - S.room) / 64) else []

/-- The buffer after `absorb(S, m)`. The remainder goes to index 0 when the buffer was filled, and behind the bytes
already buffered otherwise; bytes no write reaches keep their values (R63, 90_conflicts C1). -/
def absorbedBuffer (S : DigestState) (m : List Byte) : Block :=
  if S.room ≤ m.length then
    blockWrite (S.filled m) 0 (m.drop (S.room + 64 * ((m.length - S.room) / 64)))
  else blockWrite S.buffer S.index m

/-- `absorb(S, m)` (R63): append the bytes `m` to a DigestState. The count wraps modulo 2^64 (R12). -/
def absorb (S : DigestState) (m : List Byte) : DigestState where
  words := (absorbedBlocks S m).foldl md5Compress S.words
  buffer := absorbedBuffer S m
  count := S.count + BitVec.ofNat 64 m.length

end Sys2Proof.Machine
end

