-- ==== Sys2Proof/Machine/Digest.lean ====
section
/-! DEFINITION. Finalizing a snapshot, the digest and its hex text, and the meaning of PEEK (42_digest). -/

namespace Sys2Proof.Machine

/-- The pad length (R70). -/
def padLength (idx : Nat) : Nat := if idx < 56 then 56 - idx else 120 - idx

/-- The padding: 0x80, then `pad - 1` zero bytes (R71). -/
def padding (idx : Nat) : List Byte := 0x80 :: List.replicate (padLength idx - 1) 0x00

/-- The length field: the little-endian bit count, `(count * 8) mod 2^64` (R69). -/
def lengthField (count : Count) : List Byte := bytesLe64 (count * 8)

/-- FIN at the end of PEEK: a copy of the state, with the padding and then the length field absorbed (R68 steps 1 to 5,
R71). -/
def finalize (S : DigestState) : DigestState :=
  absorb (absorb S (padding S.index)) (lengthField S.count)

/-- The bytes of the four words, words[0] first, each little-endian (R72). -/
def wordBytes (w : Words) : List Byte :=
  bytesLe32 w.a ++ bytesLe32 w.b ++ bytesLe32 w.c ++ bytesLe32 w.d

/-- The 16 digest bytes of four accumulator words (R72). -/
def digestOfWords (w : Words) : Vector Byte 16 := ⟨(wordBytes w).toArray, rfl⟩

/-- `hexchar(v)`: the ASCII code of a lowercase hexadecimal digit (R73). -/
def hexChar (v : BitVec 4) : Byte :=
  if v.toNat < 10 then 0x30 + v.setWidth 8 else 0x61 + (v.setWidth 8 - 10)

/-- The characters of some bytes, high nibble first (R73). -/
def hexChars : List Byte → List Byte
  | [] => []
  | b :: bs => hexChar ((b >>> 4).setWidth 4) :: hexChar (b.setWidth 4) :: hexChars bs

/-- Two characters a byte (R73). -/
theorem hexChars_length (bs : List Byte) : (hexChars bs).length = 2 * bs.length := by
  induction bs with
  | nil => rfl
  | cons b bs ih => simp only [hexChars, List.length_cons, ih]; omega

/-- The 32 hex characters of a digest (R73). -/
def hexOfDigest (d : Vector Byte 16) : Vector Byte 32 := ⟨(hexChars d.toList).toArray, by simp [hexChars_length]⟩

/-- The digest of a DigestState: that of the four words of its finalized snapshot (R68). -/
def digestOf (S : DigestState) : Vector Byte 16 := digestOfWords (finalize S).words

/-- PEEK (R68): FIN finalized, DIGEST and HEX published, DVALID 1, ERR 0; LIVE is only read. -/
def execPeek (s : State) : Host.Outcome State Fault Refusal :=
  .next { s with
    fin := finalize s.live
    digest := digestOf s.live
    hex := hexOfDigest (digestOf s.live)
    dvalid := true }.complete

end Sys2Proof.Machine
end

