-- ==== Sys2Proof/Machine/Operands.lean ====
section
/-! DEFINITION. The operand forms of the commands: the chunk slice of UPDATE, and the blob in XFER of RESTORE, COMPARE
and EXPORT, with the checks that come before any write (R84, R85 checks 4 to 7). -/

namespace Sys2Proof.Machine

/-- UPDATE's operand: the bytes CHUNK[off .. off + len - 1], or PRECONDITION when off + len > 4096. The sum is exact
and nothing is clamped (R66, R67). -/
def State.chunkSlice (s : State) (off len : Nat) : Except EngineFault (List Byte) :=
  if Config.chunkBytes < off + len then .error .precondition else .ok (s.readChunk off len)

/-- `blob(S)`, the 92-byte serialized state (R75). -/
def blob (S : DigestState) : List Byte :=
  [0x04, 0x40, 0x00, 0x00] ++ bytesLe32 S.words.a ++ bytesLe32 S.words.b ++ bytesLe32 S.words.c
    ++ bytesLe32 S.words.d ++ S.buffer.toList ++ bytesLe64 S.count

/-- The DigestState that 92 bytes with a correct header hold (R76). -/
def unblob (X : List Byte) : DigestState where
  words := ⟨le32 X 4, le32 X 8, le32 X 12, le32 X 16⟩
  buffer := blockOf (X.drop 20)
  count := le64 X 84

/-- The header of a blob is well-formed: WCNT = 4, BLEN = 64, both reserved bytes 0 (R75, R76). -/
def blobHeaderOk (X : List Byte) : Bool :=
  X.getD 0 0 == 0x04 && X.getD 1 0 == 0x40 && X.getD 2 0 == 0x00 && X.getD 3 0 == 0x00

/-- `parse(len)`: the state serialized in XFER, or MALFORMED_STATE (R76). -/
def State.parseBlob (s : State) (len : Nat) : Except EngineFault DigestState :=
  if len ≠ Config.blobBytes then .error .malformedState
  else if blobHeaderOk s.readXfer then .ok (unblob s.readXfer) else .error .malformedState

end Sys2Proof.Machine
end

