-- ==== Sys2Proof/Machine/StateTransfer.lean ====
section
/-! DEFINITION. The meanings of EXPORT, RESTORE and COMPARE (43_state_transfer). -/

namespace Sys2Proof.Machine

/-- EXPORT (R77): write the blob of LIVE to XFER. -/
def execExportState (s : State) : Host.Outcome State Fault Refusal :=
  .next (s.writeXfer (blob s.live)).complete

/-- RESTORE len (R78): replace LIVE with the state parsed from XFER, or MALFORMED_STATE with LIVE as it was. -/
def execRestore (len : Nat) (s : State) : Host.Outcome State Fault Refusal :=
  .next (s.checked (s.parseBlob len) fun S => { s with live := S, dvalid := false }.complete)

/-- COMPARE len (R79): EQ says whether the state parsed from XFER equals LIVE; MALFORMED_STATE leaves EQ alone. -/
def execCompare (len : Nat) (s : State) : Host.Outcome State Fault Refusal :=
  .next (s.checked (s.parseBlob len) fun S => { s with eq := sameDigestState S s.live }.complete)

end Sys2Proof.Machine
end

