-- ==== Sys2Proof/Machine/Stream.lean ====
section
/-! DEFINITION. The meanings of INIT and UPDATE (41_stream). -/

namespace Sys2Proof.Machine

/-- INIT (R65): LIVE fresh, DVALID cleared, ERR 0. FIN, the RAMs, DIGEST, HEX, EQ and FAULTSEEN stay (R97). -/
def execInit (s : State) : Host.Outcome State Fault Refusal :=
  .next { s with live := DigestState.fresh, dvalid := false }.complete

/-- What an UPDATE does with its bytes once its check has passed (R66). -/
def State.absorbLive (s : State) (m : List Byte) : State :=
  { s with live := absorb s.live m, dvalid := dvalidAfterUpdate m.length s.dvalid }

/-- UPDATE off, len (R66): absorb the chunk slice into LIVE, or PRECONDITION with nothing absorbed (R67). -/
def execUpdate (off len : Nat) (s : State) : Host.Outcome State Fault Refusal :=
  .next (s.checked (s.chunkSlice off len) fun m => (s.absorbLive m).complete)

end Sys2Proof.Machine
end

