-- ==== Sys2Proof/Machine/Dispatch.lean ====
section
/-! DEFINITION. The dispatch of a decoded command to its meaning (R46). -/

namespace Sys2Proof.Machine

/-- Run a command to completion (R37, R46). -/
def exec (i : Instr) (s : State) : Host.Outcome State Fault Refusal :=
  match i with
  | .init => Sys2Proof.Machine.execInit s
  | .update off len => Sys2Proof.Machine.execUpdate off len s
  | .peek => Sys2Proof.Machine.execPeek s
  | .exportState => Sys2Proof.Machine.execExportState s
  | .restore len => Sys2Proof.Machine.execRestore len s
  | .compare len => Sys2Proof.Machine.execCompare len s

end Sys2Proof.Machine
end

