-- ==== Sys2Proof/Machine/Window.lean ====
section
/-! DEFINITION. The host window: its map, the byte at each offset, and the access rules (20_memory, R29 to R36). -/

namespace Sys2Proof.Machine

/-- The regions of the window (R31). -/
inductive Region where
  | cmd | status | digest | hex | xfer | chunk | reserved
deriving DecidableEq, Repr

/-- The region of an offset inside the window (R31). -/
def regionOf (o : Nat) : Region :=
  if o < 0x0004 then .cmd
  else if o < 0x0008 then .status
  else if o < 0x0010 then .reserved
  else if o < 0x0020 then .digest
  else if o < 0x0040 then .hex
  else if o < 0x0100 then .reserved
  else if o < 0x015C then .xfer
  else if o < 0x1000 then .reserved
  else .chunk

/-- The byte a read finds at an offset inside the window: CMD and reserved offsets read 0 (R20, R35), the registers
read as they stand, the RAMs as last written (R35). -/
def State.windowByte (s : State) (o : Nat) : Byte :=
  match regionOf o with
  | .cmd => 0
  | .status => (bytesLe32 s.status).getD (o - 0x0004) 0
  | .digest => s.digest.toList.getD (o - 0x0010) 0
  | .hex => s.hex.toList.getD (o - 0x0020) 0
  | .xfer => s.ramByte o
  | .chunk => s.ramByte o
  | .reserved => 0

/-- `n` window bytes from an offset on. -/
def State.windowBytes (s : State) (o : Nat) : Nat → List Byte
  | 0 => []
  | n + 1 => s.windowByte o :: s.windowBytes (o + 1) n

/-- "A host access moves 1, 2 or 4 bytes. It must be naturally aligned, with offset mod size = 0" (R32). -/
def legalAccess (off size : Nat) : Bool :=
  (size == 1 || size == 2 || size == 4) && off % size == 0

/-- What a host read answers; it has no side effect (R32, R33, R35, R36). Bytes above the access's size are 0 (log
entry 8). -/
def State.hostRead (s : State) (off size : Nat) : Response :=
  if Config.windowBytes ≤ off then .notReached
  else if legalAccess off size then .data (le32 (s.windowBytes off size) 0)
  else .busError

/-- What the access rules make of a host write (R32, R35). -/
inductive WriteKind where
  /-- It does not reach this engine (R30). -/
  | notReached
  /-- It is answered with a bus error and changes nothing (R32; a narrow write to CMD, R35). -/
  | busError
  /-- It issues a command (R37). -/
  | command
  /-- It stores its bytes (CHUNK and XFER, R35). -/
  | store
  /-- It is accepted and ignored (STATUS, DIGEST, HEX and reserved offsets, R35). -/
  | ignored
deriving DecidableEq, Repr

/-- The access rules for a write (R30, R32, R35). -/
def writeKind (off size : Nat) : WriteKind :=
  if Config.windowBytes ≤ off then .notReached
  else if legalAccess off size then
    match regionOf off with
    | .cmd => if size = 4 then .command else .busError
    | .status => .ignored
    | .digest => .ignored
    | .hex => .ignored
    | .xfer => .store
    | .chunk => .store
    | .reserved => .ignored
  else .busError

/-- The bytes a write of `size` bytes moves: byte k is bits [8k+7:8k] of the value (R33). -/
def writtenBytes (size : Nat) (value : Word) : List Byte := (bytesLe32 value).take size

end Sys2Proof.Machine
end

