-- ==== Sys2Proof/Machine/HostPort.lean ====
section
/-! DEFINITION. How the engine serves one host operation: a window read or write, a command, a hardware reset (R32 to
R38, R96, R102). -/

namespace Sys2Proof.Machine

/-- Issue a command word (R37): decode it before any state is touched, then run the command, or raise ILLEGAL_COMMAND
(R46, R47). -/
def issueCommand (w : Word) (s : State) : Host.Outcome State Fault Refusal :=
  match decodeWord w with
  | .command i => exec i s
  | .illegal _ => .next (s.raiseFault .illegalCommand)

/-- A host write (R32, R35, R37). -/
def hostWrite (off size : Nat) (value : Word) (s : State) : Host.Outcome State Fault Refusal :=
  match writeKind off size with
  | .notReached => .next (s.respond .notReached)
  | .busError => .next (s.respond .busError)
  | .command => issueCommand value (s.respond .accepted)
  | .store => .next ((s.writeRam off (writtenBytes size value)).respond .accepted)
  | .ignored => .next (s.respond .accepted)

/-- Perform one host operation. Each takes effect whole before the next begins (R37, R38). -/
def performOp (op : HostOp) (s : State) : Host.Outcome State Fault Refusal :=
  match op with
  | .read off size => .next (s.respond (s.hostRead off size))
  | .write off size value => hostWrite off size value s
  | .reset => .next s.hardwareReset

/-- Perform the oldest host operation not yet performed; when none is left the run has ended (R102, log entry 7). -/
def nextOp (s : State) : Host.Outcome State Fault Refusal :=
  match s.pending with
  | [] => .fault .endOfRun
  | op :: rest => performOp op (s.takeOp rest)

/-- The host operation that issues a command word: a 4-byte write to CMD (R37, R50). -/
def issueOp (w : Word) : HostOp := .write 0x0000 4 w

end Sys2Proof.Machine
end

