-- ==== Sys2Proof/Machine/Step.lean ====
section
/-! DEFINITION. One step of the machine: one host operation (R38, R102). -/

namespace Sys2Proof.Machine

/-- One step: perform the next operation of the host's sequence. -/
def step (s : State) : Host.Outcome State Fault Refusal := nextOp s

/-- `s` with the word of an opcode-table row as its next host operation: a write of that word to CMD. Commands are not
fetched (R19), so this stands for the host placing the operation next in its sequence (log entry 5). -/
def State.withFetchWord (s : State) (nbits w : Nat) : State :=
  { s with pending := issueOp (tableWord nbits w) :: s.pending }

end Sys2Proof.Machine
end

