-- ==== Sys2Proof/Machine/Cost.lean ====
section
/-! DEFINITION. The number of md5_compress evaluations of a command: "The only cost measure the rules fix" (R101). It is
informational; no meaning reads it. -/

namespace Sys2Proof.Machine

/-- The evaluations of `finalize`: those of the padding feed and of the length feed (R71). -/
def finalizeCompressions (S : DigestState) : Nat :=
  (absorbedBlocks S (padding S.index)).length
    + (absorbedBlocks (absorb S (padding S.index)) (lengthField S.count)).length

/-- The evaluations of an UPDATE: none when its check fails. -/
def updateCompressions (s : State) : Except EngineFault (List Byte) → Nat
  | .ok m => (absorbedBlocks s.live m).length
  | .error _ => 0

/-- The evaluations of a command (R101). -/
def compressions (i : Instr) (s : State) : Nat :=
  match i with
  | .init => 0
  | .update off len => updateCompressions s (s.chunkSlice off len)
  | .peek => finalizeCompressions s.live
  | .exportState => 0
  | .restore _ => 0
  | .compare _ => 0

end Sys2Proof.Machine
end

