-- ==== Sys2Proof/Machine/Reference.lean ====
section
/-! DEFINITION. MD5 of a whole byte sequence, and what it means for a DigestState to hold the input absorbed so far.
No meaning of a command calls anything here: it is what claims compare the engine with (R2, R13). -/

namespace Sys2Proof.Machine

/-- The complete 64-byte blocks of an input, in order (R13). -/
def completeBlocks (m : List Byte) : List Block := windows m (m.length / 64)

/-- The bytes of an input behind its complete blocks: "the most recently appended, not-yet-transformed input" (R13). -/
def openTail (m : List Byte) : List Byte := m.drop (64 * (m.length / 64))

/-- `fold(md5_compress, IV, blocks of m)` (R13). -/
def foldBlocks (m : List Byte) : Words := (completeBlocks m).foldl md5Compress initialWords

/-- The valid prefix of a DigestState's buffer, `buffer[0 .. count mod 64 - 1]` (R11). -/
def DigestState.validPrefix (S : DigestState) : List Byte := S.buffer.toList.take S.index

/-- The two invariants of R13 for a DigestState whose input so far is `m`, with its count (R12). -/
def Represents (S : DigestState) (m : List Byte) : Prop :=
  S.words = foldBlocks m ∧ S.validPrefix = openTail m ∧ S.count = BitVec.ofNat 64 m.length

/-- An input with its padding and length field: whole blocks (R69, R70, R71). -/
def padded (m : List Byte) : List Byte :=
  m ++ padding (m.length % 64) ++ lengthField (BitVec.ofNat 64 m.length)

/-- MD5 of an input, in one piece: fold the compression over the padded input, then the words little-endian
(R2, R72; DEDUCED composition, log entry 14). -/
def md5 (m : List Byte) : List Byte := wordBytes (foldBlocks (padded m))

end Sys2Proof.Machine
end

