-- ==== Sys2Proof/Safety.lean ====
section
/-! DEFINITION. The terms claims are stated in: when a command faults, what every step keeps, and when two states carry
the same stream. -/

namespace Sys2Proof

open Sys2Proof.Machine

/-- The bytes of XFER do not begin with a correct header (R76, R82). -/
def malformedHeader (s : State) : Prop :=
  s.ramByte 0x0100 ≠ 0x04 ∨ s.ramByte 0x0101 ≠ 0x40 ∨ s.ramByte 0x0102 ≠ 0x00 ∨ s.ramByte 0x0103 ≠ 0x00

/-- The command faults in the state, with the fault, as the table of R82 says; no other pair is related (R83). -/
def commandFaults (i : Instr) (s : State) (f : EngineFault) : Prop :=
  match i with
  | .init => False
  | .update off len => f = .precondition ∧ 4096 < off + len
  | .peek => False
  | .exportState => False
  | .restore len => f = .malformedState ∧ (len ≠ 92 ∨ malformedHeader s)
  | .compare len => f = .malformedState ∧ (len ≠ 92 ∨ malformedHeader s)

/-- A safe run: no command has faulted since hardware reset. "The faults of the run are read from STATUS.FAULTSEEN"
(R102). -/
def safeRun (s : State) : Prop := s.faultSeen = false

/-- The state with the fault effect of R84 and nothing else. -/
def faulted (s : State) (code : BitVec 4) : State := { s with err := code, faultSeen := true }

/-- An offset lies in XFER or CHUNK (R31). -/
def inRam (a : Nat) : Prop := (0x0100 ≤ a ∧ a < 0x015C) ∨ (0x1000 ≤ a ∧ a < 0x2000)

/-- INVARIANT: the RAM list is canonical, and lists only bytes of XFER and CHUNK. -/
def ramCanonical (s : State) : Prop := s.ram.wf ∧ ∀ c ∈ s.ram, inRam c.1

/-- INVARIANT: STATUS.ERR holds a named code (R82: "4 to 15 never produced"), and a fault code only where FAULTSEEN is
set (R84, R25). -/
def errConsistent (s : State) : Prop := s.err.toNat ≤ 3 ∧ (s.err ≠ 0 → s.faultSeen = true)

/-- INVARIANT: DVALID = 1 implies that DIGEST is the digest of LIVE and HEX its hex encoding (R23). -/
def publishedCurrent (s : State) : Prop :=
  s.dvalid = true → s.digest = digestOf s.live ∧ s.hex = hexOfDigest s.digest

/-- Byte `k` of a word, lowest first (00_scope §5, `bytes_le32`). -/
def byteOfWord (w : Word) (k : Nat) : Byte := (w >>> (8 * k)).setWidth 8

/-- Byte `k` of a count, lowest first (00_scope §5, `bytes_le64`). -/
def byteOfCount (c : Count) (k : Nat) : Byte := (c >>> (8 * k)).setWidth 8

/-- XFER holds the words, the buffer and the count of a DigestState at the places of R75. -/
def xferHolds (s : State) (S : DigestState) : Prop :=
  (∀ k < 4, s.ramByte (0x0104 + k) = byteOfWord S.words.a k ∧ s.ramByte (0x0108 + k) = byteOfWord S.words.b k ∧
    s.ramByte (0x010C + k) = byteOfWord S.words.c k ∧ s.ramByte (0x0110 + k) = byteOfWord S.words.d k) ∧
  (∀ (k : Nat) (h : k < 64), s.ramByte (0x0114 + k) = S.buffer[k]) ∧
  (∀ k < 8, s.ramByte (0x0154 + k) = byteOfCount S.count k)

/-- An access of a size and alignment the host interface takes (R32). -/
def aligned (off size : Nat) : Prop := (size = 1 ∨ size = 2 ∨ size = 4) ∧ off % size = 0

/-- Every RAM byte reads the same in both states. -/
def sameRam (s t : State) : Prop := ∀ a, t.ramByte a = s.ramByte a

/-- The model's own fields are the same in both states: a command touches none of them. -/
def sameHostSide (s t : State) : Prop :=
  t.pending = s.pending ∧ t.pc = s.pc ∧ t.response = s.response ∧ t.ramDraw = s.ramDraw

/-- The two states carry the same stream: LIVE and the RAMs agree; FIN, DIGEST, HEX and the STATUS flags may differ. -/
def sameStream (s t : State) : Prop := t.live = s.live ∧ sameRam s t

/-- Two DigestStates with the same future digests: words, valid buffer prefix, and bits 60:0 of count agree (R27,
R81). Stale bytes and bits 63:61 of count may differ. -/
def sameFuture (S T : DigestState) : Prop :=
  S.words = T.words ∧ S.validPrefix = T.validPrefix ∧ S.count.toNat % 2 ^ 61 = T.count.toNat % 2 ^ 61

end Sys2Proof
end

