-- ==== Sys2Proof/Certificates/Slice0/Obligations.lean ====
section
/-! DEFINITION. The statements for the provers. Each docstring names the rule of spec/ it follows; where a statement
rests on a choice of the model it names the log entry. Every statement about a state is about EVERY state. -/

open Sys2Proof Sys2Proof.Machine

/-! ## Encoding (30_encoding) -/

/-- Decoding the word of a well-formed command gives the command back, with every operand (R42, R43, R46). The second
clause says the same of the word's bytes: that there is a decoder of bytes, and its byte order, which is that of the
host bus (R33), are the model's choice (log entry 12). -/
def Obligations.DecodeOfEncodeIsTheCommand : Prop :=
  ∀ (i : Instr) (rest : List Byte), i.wellFormed = true →
    decodeWord (encode i) = .command i ∧ decodeBytes (bytesLe32 (encode i) ++ rest) = .command i rest

/-- A word that decodes to a command is the encoding of that command, which is well-formed: no bit is ignored (R42,
R46). -/
def Obligations.EncodeOfDecodeIsTheWord : Prop :=
  ∀ (w : Word) (i : Instr), decodeWord w = .command i → i.wellFormed = true ∧ encode i = w

/-- R44: a word that decodes to a command is selected by exactly one row of the opcode map, its command's; a word that
no row selects is illegal, and only such a word is. -/
def Obligations.OpcodeMapSelectsTheCommand : Prop :=
  ∀ w : Word,
    (∀ i, decodeWord w = .command i → (opcodeMap.filter (·.selects w)).map (·.mnemonic) = [i.mnemonic]) ∧
    ((∃ why, decodeWord w = .illegal why) ↔ opcodeMap.filter (·.selects w) = [])

/-- R47: which words are illegal, and that each raises ILLEGAL_COMMAND with the fault effect alone. -/
def Obligations.IllegalWordsRaiseIllegalCommand : Prop :=
  ∀ w : Word,
    let op := (w.extractLsb' 28 4).toNat
    let rsv := (w.extractLsb' 26 2).toNat
    let off := (w.extractLsb' 13 13).toNat
    let len := (w.extractLsb' 0 13).toNat
    ((∃ why, decodeWord w = .illegal why) ↔
      op = 0 ∨ 7 ≤ op ∨ rsv ≠ 0 ∨ ((op = 1 ∨ op = 3 ∨ op = 4) ∧ (off ≠ 0 ∨ len ≠ 0)) ∨ ((op = 5 ∨ op = 6) ∧ off ≠ 0)) ∧
    (∀ s, (∃ why, decodeWord w = .illegal why) → issueCommand w s = .next (faulted s 1))

/-- Words written out in R50 and in the decode vectors of 95_test_vectors §7, one for each command. -/
def Obligations.ListedWordsDecodeAsListed : Prop :=
  decodeWord 0x10000000 = .command .init ∧ decodeWord 0x20014021 = .command (.update 10 33) ∧
  decodeWord 0x21F400C8 = .command (.update 4000 200) ∧ decodeWord 0x30000000 = .command .peek ∧
  decodeWord 0x40000000 = .command .exportState ∧ decodeWord 0x5000005C = .command (.restore 92) ∧
  decodeWord 0x6000005C = .command (.compare 92) ∧ decodeWord 0x00000000 = .illegal .opcode

/-! ## Steps (R19, R37, R38, R102) -/

/-- A step runs the decoded command: when the next host operation writes a word to CMD and the word decodes, the step
is `exec` of the command on the state with the operation taken, the pc one further and the write accepted (R37; the
sequence, pc and answer are the model's: log entries 5, 6, 8). -/
def Obligations.StepRunsTheDecodedCommand : Prop :=
  ∀ (s : State) (w : Word) (rest : List HostOp) (i : Instr),
    s.pending = .write 0x0000 4 w :: rest → decodeWord w = .command i →
    step s = exec i { s with pending := rest, pc := s.pc + 1, response := .accepted }

/-- A step on an illegal word has the fault effect of code 1 and nothing else, beside taking the operation (R47, R84;
log entries 5, 6, 8). -/
def Obligations.StepFaultsOnAnIllegalWord : Prop :=
  ∀ (s : State) (w : Word) (rest : List HostOp) (why : IllegalCause),
    s.pending = .write 0x0000 4 w :: rest → decodeWord w = .illegal why →
    step s = .next (faulted { s with pending := rest, pc := s.pc + 1, response := .accepted } 1)

/-- Every host operation, commands, faults and reset among them, advances the pc by one and takes itself off the
sequence, and nothing else changes either (R19; the model's pc and sequence: log entries 5, 6). -/
def Obligations.EveryStepAdvancesTheSequenceByOne : Prop :=
  ∀ s t : State, step s = .next t → t.pc = s.pc + 1 ∧ ∃ op, s.pending = op :: t.pending

/-- A step stops exactly when no host operation is left; on every operation, in every state, there is a next state
(R89 "nothing here is fatal", R102; the stop is the model's: log entry 7). -/
def Obligations.StepStopsOnlyAtTheEndOfTheRun : Prop :=
  ∀ s : State, (s.pending = [] → step s = .fault .endOfRun) ∧ (s.pending ≠ [] → ∃ t, step s = .next t)

/-! ## The host window (20_memory) -/

/-- R32: a misaligned access, or one of another size, is answered with a bus error and changes no engine state. -/
def Obligations.BadAccessesGetABusErrorAndChangeNothing : Prop :=
  ∀ (s : State) (off size : Nat) (v : Word), off < 0x2000 → ¬ aligned off size →
    performOp (.read off size) s = .next { s with response := .busError } ∧
    performOp (.write off size v) s = .next { s with response := .busError }

/-- CMD reads 0, refuses narrow writes with a bus error and no command, and takes a word write as the issue of that
command (R20, R35, R37). -/
def Obligations.CmdTakesWordWritesOnly : Prop :=
  ∀ (s : State) (off size : Nat) (v : Word), off < 4 → aligned off size →
    performOp (.read off size) s = .next { s with response := .data 0 } ∧
    (size < 4 → performOp (.write off size v) s = .next { s with response := .busError }) ∧
    (size = 4 → performOp (.write off size v) s = issueCommand v { s with response := .accepted })

/-- A write to STATUS, DIGEST, HEX or a reserved offset is accepted and ignored (R35). -/
def Obligations.ReadOnlyOffsetsIgnoreWrites : Prop :=
  ∀ (s : State) (off size : Nat) (v : Word),
    (0x0004 ≤ off ∧ off < 0x0100) ∨ (0x015C ≤ off ∧ off < 0x1000) → aligned off size →
    performOp (.write off size v) s = .next { s with response := .accepted }

/-- What each offset of the window reads as: the map of R31 with the reads of R35. -/
def Obligations.WindowMapContents : Prop :=
  ∀ s : State,
    (∀ k < 4, s.windowByte k = 0) ∧
    (∀ k < 4, s.windowByte (0x0004 + k) = byteOfWord s.status k) ∧
    (∀ (k : Nat) (h : k < 16), s.windowByte (0x0010 + k) = s.digest[k]) ∧
    (∀ (k : Nat) (h : k < 32), s.windowByte (0x0020 + k) = s.hex[k]) ∧
    (∀ a, inRam a → s.windowByte a = s.ramByte a) ∧
    (∀ a, (0x0008 ≤ a ∧ a < 0x0010) ∨ (0x0040 ≤ a ∧ a < 0x0100) ∨ (0x015C ≤ a ∧ a < 0x1000) → s.windowByte a = 0)

/-- Byte o + k of the window is bits [8k+7:8k] of the data value, for a read and for a write to RAM; with three readings
of STATUS and DIGEST (R33). R33 gives the 1-byte read at 0x0005 its byte only: that the 24 bits above it are 0 is the
model's choice (log entry 8). -/
def Obligations.LittleEndianLanes : Prop :=
  ∀ s : State,
    (∀ off size, off < 0x2000 → aligned off size →
      (∃ v, performOp (.read off size) s = .next { s with response := .data v } ∧
        ∀ k < size, byteOfWord v k = s.windowByte (off + k)) ∧
      (inRam off → ∀ v, ∃ t, performOp (.write off size v) s = .next t ∧
        ∀ k < size, t.windowByte (off + k) = byteOfWord v k)) ∧
    performOp (.read 0x0004 4) s = .next { s with response := .data s.status } ∧
    performOp (.read 0x0005 1) s = .next { s with response := .data ((s.status.extractLsb' 8 8).setWidth 32) } ∧
    performOp (.read 0x0010 4) s = .next { s with response := .data (le32 s.digest.toList 0) }

/-- CHUNK and XFER are plain RAM: an aligned write stores its bytes and changes no other RAM byte and no register
(R35, R40). -/
def Obligations.RamWritesStoreTheirBytesAlone : Prop :=
  ∀ (s : State) (off size : Nat) (v : Word), inRam off → aligned off size →
    ∃ t, performOp (.write off size v) s = .next t ∧
      (∀ k < size, t.ramByte (off + k) = byteOfWord v k) ∧
      (∀ a, a < off ∨ off + size ≤ a → t.ramByte a = s.ramByte a) ∧
      t = { s with ram := t.ram, response := .accepted }

/-- No host access but a 4-byte write to CMD touches anything but the RAMs and the answer: no flag, no LIVE, FIN, DIGEST
or HEX (R26, R36, R40); and a read touches the answer alone, the same answer each time. -/
def Obligations.OnlyCmdWritesTouchTheRegisters : Prop :=
  ∀ s : State,
    (∀ op t, performOp op s = .next t → op ≠ .reset → (∀ w, op ≠ .write 0x0000 4 w) →
      t = { s with ram := t.ram, response := t.response }) ∧
    (∀ off size t, performOp (.read off size) s = .next t →
      t = { s with response := t.response } ∧ performOp (.read off size) t = .next t)

/-- An access at a window offset of 0x2000 or more does not reach this engine: nothing but the answer changes, and what
the answer is the statement does not say (R30; log entry 9). -/
def Obligations.AccessesBeyondTheWindowDoNotReachTheEngine : Prop :=
  ∀ (s : State) (off size : Nat) (v : Word), 0x2000 ≤ off →
    (∃ t, performOp (.read off size) s = .next t ∧ t = { s with response := t.response }) ∧
    (∃ t, performOp (.write off size v) s = .next t ∧ t = { s with response := t.response })

/-! ## STATUS and the faults (10_state §6, 60_exceptions) -/

/-- R21: the layout of STATUS as a read of 0x0004 returns it, its reserved bits 0, BUFCNT live from LIVE.count, writes
ignored, and 0 at reset. -/
def Obligations.StatusReadsAsLaidOut : Prop :=
  (∀ s : State, ∃ st : Word, performOp (.read 0x0004 4) s = .next { s with response := .data st } ∧
    st.extractLsb' 0 4 = s.err ∧ st.extractLsb' 4 4 = 0 ∧ st.getLsbD 8 = s.dvalid ∧ st.getLsbD 9 = s.eq ∧
    st.getLsbD 10 = s.faultSeen ∧ st.extractLsb' 11 5 = 0 ∧
    (st.extractLsb' 16 6).toNat = s.live.count.toNat % 64 ∧ st.extractLsb' 22 10 = 0) ∧
  (∀ (s : State) (v : Word), performOp (.write 0x0004 4 v) s = .next { s with response := .accepted }) ∧
  State.reset.status = 0

/-- R84, with the codes of R82: a command that faults (`commandFaults`), and an illegal word, writes its code to ERR and
1 to FAULTSEEN, and nothing else. A command that does not fault completes, writes 0 to ERR and leaves FAULTSEEN
alone. -/
def Obligations.FaultsWriteErrAndFaultSeenAlone : Prop :=
  (∀ (i : Instr) (s : State),
    (∀ f, commandFaults i s f →
      exec i s = .next (faulted s (match f with | .illegalCommand => 1 | .precondition => 2 | .malformedState => 3))) ∧
    ((∀ f, ¬ commandFaults i s f) → ∃ t, exec i s = .next t ∧ t.err = 0 ∧ t.faultSeen = s.faultSeen)) ∧
  (∀ (w : Word) (s : State) (why : IllegalCause), decodeWord w = .illegal why → issueCommand w s = .next (faulted s 1))

/-- R24: a word written to CMD leaves EQ alone unless it is a COMPARE that completes: an illegal word, every other
command, and a COMPARE that faults. -/
def Obligations.EqWrittenOnlyByACompletingCompare : Prop :=
  ∀ (w : Word) (s t : State), issueCommand w s = .next t →
    (∀ len, decodeWord w = .command (.compare len) → ∃ f, commandFaults (.compare len) s f) → t.eq = s.eq

/-- R25: every faulting command, an illegal word among them, sets FAULTSEEN; no operation but hardware reset clears it,
and hardware reset does. -/
def Obligations.FaultSeenIsStickyUntilHardwareReset : Prop :=
  (∀ (w : Word) (s : State) (why : IllegalCause), decodeWord w = .illegal why →
    ∃ t, issueCommand w s = .next t ∧ t.faultSeen = true) ∧
  (∀ (i : Instr) (s : State) (f : EngineFault), commandFaults i s f → ∃ t, exec i s = .next t ∧ t.faultSeen = true) ∧
  (∀ s t : State, step s = .next t → s.faultSeen = true → s.pending.head? ≠ some .reset → t.faultSeen = true) ∧
  (∀ s : State, ∃ t, performOp .reset s = .next t ∧ t.faultSeen = false)

/-- DVALID after each command (R23): set by PEEK; cleared by INIT, RESTORE and UPDATE with LEN > 0; otherwise, and by
every fault, left alone. -/
def Obligations.DvalidAfterEachCommand : Prop :=
  ∀ (i : Instr) (s t : State), exec i s = .next t →
    ((∃ f, commandFaults i s f) → t.dvalid = s.dvalid) ∧
    ((∀ f, ¬ commandFaults i s f) → t.dvalid = match i with
      | .init => false
      | .update _ len => if len = 0 then s.dvalid else false
      | .peek => true
      | .exportState => s.dvalid
      | .restore _ => false
      | .compare _ => s.dvalid)

/-- The "written by" column of R8, for the commands: no command writes CHUNK (R16); XFER only EXPORT (R17); FIN, DIGEST
and HEX only PEEK (R14, R18); LIVE only INIT, UPDATE and RESTORE (R10); EQ only COMPARE; and no command touches the
model's own fields. -/
def Obligations.EachStateItemHasItsWriters : Prop :=
  ∀ (i : Instr) (s t : State), exec i s = .next t →
    (∀ a, ¬ (0x0100 ≤ a ∧ a < 0x015C) → t.ramByte a = s.ramByte a) ∧
    (i ≠ .exportState → sameRam s t) ∧
    (i ≠ .peek → t.fin = s.fin ∧ t.digest = s.digest ∧ t.hex = s.hex) ∧
    (i ≠ .init → (∀ off len, i ≠ .update off len) → (∀ len, i ≠ .restore len) → t.live = s.live) ∧
    ((∀ len, i ≠ .compare len) → t.eq = s.eq) ∧
    sameHostSide s t

/-! ## Invariants of every step -/

/-- Every step keeps the RAM list canonical and inside XFER and CHUNK, whatever the host writes (the form is the
model's: log entry 4; the regions are R31's). -/
def Obligations.StepKeepsTheRamCanonical : Prop :=
  ∀ s t : State, ramCanonical s → step s = .next t → ramCanonical t

/-- Every step keeps ERR at a code of R82, and a fault code only beside FAULTSEEN = 1 (R22, R25, R84). -/
def Obligations.StepKeepsErrConsistent : Prop :=
  ∀ s t : State, errConsistent s → step s = .next t → errConsistent t

/-- Every step keeps "DVALID = 1 implies that DIGEST is the digest of LIVE and HEX is its hex encoding" (R23; the spec
marks the sentence as derived). -/
def Obligations.StepKeepsThePublishedDigestCurrent : Prop :=
  ∀ s t : State, publishedCurrent s → step s = .next t → publishedCurrent t

/-- The three invariants hold right after reset: ERR, FAULTSEEN and DVALID are 0 (R96). That the RAM list is canonical is
about the model's form of the RAMs, empty at reset, and is the model's choice (log entry 4). -/
def Obligations.ResetMeetsTheInvariants : Prop :=
  ramCanonical State.reset ∧ errConsistent State.reset ∧ publishedCurrent State.reset

/-- The values R96 gives for hardware reset, for the reset operation in any state and for the model's reset state; the
unspecified items (FIN, CHUNK, XFER) are not spoken of. The host's sequence stands (log entry 5). -/
def Obligations.HardwareResetValues : Prop :=
  (∀ s : State, ∃ t, performOp .reset s = .next t ∧ t.pending = s.pending ∧ t.pc = s.pc ∧ t.status = 0 ∧
    t.live = ⟨⟨0x67452301, 0xefcdab89, 0x98badcfe, 0x10325476⟩, Vector.replicate 64 0, 0⟩ ∧
    t.digest = Vector.replicate 16 0 ∧ t.hex = Vector.replicate 32 0 ∧
    t.err = 0 ∧ t.dvalid = false ∧ t.eq = false ∧ t.faultSeen = false) ∧
  State.reset.status = 0 ∧
  State.reset.live = ⟨⟨0x67452301, 0xefcdab89, 0x98badcfe, 0x10325476⟩, Vector.replicate 64 0, 0⟩ ∧
  State.reset.digest = Vector.replicate 16 0 ∧ State.reset.hex = Vector.replicate 32 0

/-! ## The compression engine (40_compression) -/

/-- R53: word j of the schedule holds bytes 4j to 4j + 3 of the block, lowest first. -/
def Obligations.ScheduleIsLittleEndian : Prop :=
  ∀ (B : Block) (j k : Nat) (hj : j < 16) (hk : k < 4),
    (schedule B).length = 16 ∧ byteOfWord ((schedule B).getD j 0) k = B[4 * j + k]

/-- R54: the four round functions bit by bit, and which step uses which (R58). -/
def Obligations.RoundFunctionsBitByBit : Prop :=
  ∀ (x y z : Word) (i n : Nat), n < 32 →
    (i < 16 → (roundFn i x y z).getLsbD n = if x.getLsbD n then y.getLsbD n else z.getLsbD n) ∧
    (16 ≤ i → i < 32 → (roundFn i x y z).getLsbD n = if z.getLsbD n then x.getLsbD n else y.getLsbD n) ∧
    (32 ≤ i → i < 48 → (roundFn i x y z).getLsbD n = ((x.getLsbD n ^^ y.getLsbD n) ^^ z.getLsbD n)) ∧
    (48 ≤ i → (roundFn i x y z).getLsbD n = (y.getLsbD n ^^ (x.getLsbD n || !z.getLsbD n)))

/-- `rotl32` is a pure bit rotation (R61) for every amount from 1 to 31, and every s(i) lies in 4 to 23 (R56). -/
def Obligations.RotatesArePureRotations : Prop :=
  (∀ (x : Word) (r : Nat), 1 ≤ r → r ≤ 31 → ∀ n < 32, (rotl32 x r).getLsbD ((n + r) % 32) = x.getLsbD n) ∧
  (∀ i < 64, 4 ≤ rotateAmount i ∧ rotateAmount i ≤ 23)

/-- "Each round reads every X[0..15] exactly once" (R57; derived there). -/
def Obligations.EachRoundReadsEveryWordOnce : Prop :=
  ∀ r < 4, ((List.range 16).map fun j => messageIndex (16 * r + j)).Perm (List.range 16)

/-- R59, R60: the transform is the 64 steps in order from the incoming words, then the word-wise feed-forward. -/
def Obligations.CompressIsSixtyFourStepsAndFeedForward : Prop :=
  ∀ (W : Words) (B : Block),
    let v := (List.range 64).foldl (fun v i => md5Step (schedule B) i v) W
    md5Compress W B = ⟨W.a + v.a, W.b + v.b, W.c + v.c, W.d + v.d⟩

/-- The worked example of R62: the padded "abc" block from IV (95_test_vectors §2.2). -/
def Obligations.CompressOfTheAbcBlock : Prop :=
  md5Compress ⟨0x67452301, 0xefcdab89, 0x98badcfe, 0x10325476⟩
      (blockOf ([0x61, 0x62, 0x63, 0x80] ++ List.replicate 52 0 ++ [0x18, 0, 0, 0, 0, 0, 0, 0]))
    = ⟨0x98500190, 0xb04fd23c, 0x7d3f96d6, 0x727fe128⟩

/-! ## The block-buffer controller (41_stream) -/

/-- R63 byte by byte: the count wraps modulo 2^64; a chunk that does not fill the buffer lands behind the buffered bytes
and changes nothing else; one that does compresses every complete block of (buffered bytes ++ chunk), puts the
remainder at index 0, and leaves behind it the bytes of the first filled block (R11, 90_conflicts C1). -/
def Obligations.AbsorbByteByByte : Prop :=
  ∀ (S : DigestState) (m : List Byte),
    let i := S.count.toNat % 64
    let n := m.length
    let all := S.buffer.toList.take i ++ m
    (absorb S m).count.toNat = (S.count.toNat + n) % 2 ^ 64 ∧
    (i + n < 64 → (absorb S m).words = S.words ∧
      ∀ (k : Nat) (h : k < 64),
        (absorb S m).buffer[k] = if i ≤ k ∧ k < i + n then m.getD (k - i) 0 else S.buffer[k]) ∧
    (64 ≤ i + n → (absorb S m).words = (windows all ((i + n) / 64)).foldl md5Compress S.words ∧
      ∀ (k : Nat) (h : k < 64),
        (absorb S m).buffer[k] = if k < (i + n) % 64 then all.getD (64 * ((i + n) / 64) + k) 0 else all.getD k 0)

/-- Splitting an input into chunks changes neither the words, nor the count, nor the valid buffer prefix (R64.3). -/
def Obligations.ChunkingInvariance : Prop :=
  ∀ (S : DigestState) (ms : List (List Byte)),
    (ms.foldl absorb S).words = (absorb S ms.flatten).words ∧
    (ms.foldl absorb S).count = (absorb S ms.flatten).count ∧
    (ms.foldl absorb S).validPrefix = (absorb S ms.flatten).validPrefix

/-- R65: INIT completes in every state with LIVE fresh, DVALID and ERR 0, and nothing else changed; its word is
0x10000000, and any other word of opcode 1 raises ILLEGAL_COMMAND. -/
def Obligations.InitReinitialisesLiveAlone : Prop :=
  (∀ s : State, exec .init s = .next { s with
    live := ⟨⟨0x67452301, 0xefcdab89, 0x98badcfe, 0x10325476⟩, Vector.replicate 64 0, 0⟩
    dvalid := false
    err := 0 }) ∧
  (∀ w : Word, decodeWord w = .command .init ↔ w = 0x10000000) ∧
  (∀ (w : Word) (s : State), w.extractLsb' 28 4 = 1 → w ≠ 0x10000000 → issueCommand w s = .next (faulted s 1))

/-- R66, R67: an UPDATE within bounds completes, absorbing exactly CHUNK[off .. off + len - 1] into LIVE, clearing
DVALID when LEN > 0, with nothing else changed; one beyond the bounds raises PRECONDITION and absorbs nothing. -/
def Obligations.UpdateAbsorbsExactlyItsSlice : Prop :=
  ∀ (s : State) (off len : Nat),
    (off + len ≤ 4096 → exec (.update off len) s = .next { s with
      live := absorb s.live ((List.range len).map fun k => s.ramByte (0x1000 + off + k))
      dvalid := if len = 0 then s.dvalid else false
      err := 0 }) ∧
    (4096 < off + len → exec (.update off len) s = .next (faulted s 2))

/-- R13: the fresh state INIT leaves holds the empty input, and an UPDATE of `len` bytes extends the input the state
holds by exactly those bytes. `Represents` is the two invariants with the count. -/
def Obligations.InitAndUpdateKeepTheStreamInvariants : Prop :=
  (∀ s : State, ∃ t, exec .init s = .next t ∧ Represents t.live []) ∧
  (∀ (s : State) (m : List Byte) (off len : Nat), Represents s.live m → off + len ≤ 4096 →
    ∃ t, exec (.update off len) s = .next t ∧
      Represents t.live (m ++ (List.range len).map fun k => s.ramByte (0x1000 + off + k)))

/-! ## PEEK (42_digest) -/

/-- R70: the pad length and its ranges; the padding is 0x80 and zeros, and brings the length to 56 mod 64. -/
def Obligations.PadLengthRanges : Prop :=
  ∀ idx < 64,
    padLength idx = (if idx < 56 then 56 - idx else 120 - idx) ∧ (idx + padLength idx) % 64 = 56 ∧
    (idx < 56 → 1 ≤ padLength idx ∧ padLength idx ≤ 56) ∧ (56 ≤ idx → 57 ≤ padLength idx ∧ padLength idx ≤ 64) ∧
    padding idx = 0x80 :: List.replicate (padLength idx - 1) 0

/-- The length field holds `(count * 8) mod 2^64`, low byte first, so bits 63:61 of count never reach it (R69). -/
def Obligations.LengthFieldIsTheBitCount : Prop :=
  (∀ c : Count, (lengthField c).length = 8 ∧
    ∀ k < 8, ((lengthField c).getD k 0).toNat = (c.toNat * 8) % 2 ^ 64 / 2 ^ (8 * k) % 256) ∧
  (∀ c d : Count, c.toNat % 2 ^ 61 = d.toNat % 2 ^ 61 → lengthField c = lengthField d)

/-- R68, R71, R72, R73: PEEK completes in every state; FIN is LIVE with the padding and then the length field absorbed;
DIGEST holds FIN's words, each little-endian; HEX its two lowercase hexadecimal characters a byte, high nibble first;
DVALID 1 and ERR 0; and LIVE, the RAMs and every other flag are unchanged. -/
def Obligations.PeekFinalizesASnapshotAndPublishes : Prop :=
  ∀ s : State,
    let alphabet : List Byte := [0x30, 0x31, 0x32, 0x33, 0x34, 0x35, 0x36, 0x37, 0x38, 0x39, 0x61, 0x62, 0x63, 0x64, 0x65, 0x66]
    let idx := s.live.count.toNat % 64
    let pad := if idx < 56 then 56 - idx else 120 - idx
    ∃ t, exec .peek s = .next t ∧
      t.fin = absorb (absorb s.live (0x80 :: List.replicate (pad - 1) 0))
        ((List.range 8).map fun k => byteOfCount (s.live.count * 8) k) ∧
      (∀ k < 4, t.digest.toList.getD k 0 = byteOfWord t.fin.words.a k ∧
        t.digest.toList.getD (4 + k) 0 = byteOfWord t.fin.words.b k ∧
        t.digest.toList.getD (8 + k) 0 = byteOfWord t.fin.words.c k ∧
        t.digest.toList.getD (12 + k) 0 = byteOfWord t.fin.words.d k) ∧
      (∀ k < 16, t.hex.toList.getD (2 * k) 0 = alphabet.getD ((t.digest.toList.getD k 0).toNat / 16) 0 ∧
        t.hex.toList.getD (2 * k + 1) 0 = alphabet.getD ((t.digest.toList.getD k 0).toNat % 16) 0) ∧
      t = { s with fin := t.fin, digest := t.digest, hex := t.hex, dvalid := true, err := 0 }

/-- FIN ends on a block boundary, `pad + 8` bytes further (R71); PEEK compresses one block when the index is below 56
and two otherwise. The spec marks these as derived. -/
def Obligations.FinalizeEndsOnABlockBoundary : Prop :=
  ∀ S : DigestState,
    (finalize S).count.toNat % 64 = 0 ∧
    (finalize S).count.toNat = (S.count.toNat + padLength (S.count.toNat % 64) + 8) % 2 ^ 64 ∧
    finalizeCompressions S = if S.count.toNat % 64 < 56 then 1 else 2

/-- When LIVE holds the input `m`, PEEK publishes the MD5 of `m`, of any length (R2, R13, R68; `md5` is the
one-piece MD5 of the model: log entry 14). -/
def Obligations.PeekPublishesTheMd5OfTheInput : Prop :=
  ∀ (s : State) (m : List Byte), Represents s.live m →
    ∃ t, exec .peek s = .next t ∧ t.digest.toList = md5 m ∧ t.hex.toList = hexChars (md5 m)

/-- After hardware reset, or INIT, PEEK at once gives the empty-input digest (R98, 95_test_vectors S1). -/
def Obligations.FreshPeekGivesTheEmptyDigest : Prop :=
  ∀ s : State, s.live = DigestState.fresh → ∃ t, exec .peek s = .next t ∧
    t.digest.toList = [0xd4, 0x1d, 0x8c, 0xd9, 0x8f, 0x00, 0xb2, 0x04, 0xe9, 0x80, 0x09, 0x98, 0xec, 0xf8, 0x42, 0x7e]

/-- PEEK is idempotent, and carries the same stream on (R74). -/
def Obligations.PeekIsIdempotentAndKeepsTheStream : Prop :=
  ∀ s t : State, exec .peek s = .next t → exec .peek t = .next t ∧ sameStream s t ∧ sameHostSide s t

/-- FIN, DIGEST, HEX and the STATUS flags never feed back: two states that carry the same stream still do after the
same operation, so a PEEK put in or taken out changes no later LIVE and no later blob (R26, R74). The model's choices
here: the RAM bytes, which R96 leaves unspecified, agree after a hardware reset too because the free value is a function
of `ramDraw` and the offset (log entries 2, 3), and `ramDraw` and `pending` are the model's own (log entries 3, 5). -/
def Obligations.OutputRegistersNeverFeedBack : Prop :=
  ∀ s t s' : State, sameStream s t → t.ramDraw = s.ramDraw → t.pending = s.pending → step s = .next s' →
    ∃ t', step t = .next t' ∧ sameStream s' t' ∧ t'.ramDraw = s'.ramDraw ∧ t'.pending = s'.pending

/-- Stale buffer bytes and bits 63:61 of count never reach a digest: two DigestStates that agree but for those have the
same digest, and still agree but for those after absorbing the same bytes (R27, R81). -/
def Obligations.StaleBytesNeverReachADigest : Prop :=
  ∀ S T : DigestState, sameFuture S T → digestOf S = digestOf T ∧ ∀ m, sameFuture (absorb S m) (absorb T m)

/-- The md5_compress evaluations of each command (R101; R64.1 for an UPDATE). -/
def Obligations.CompressionCounts : Prop :=
  (∀ (S : DigestState) (m : List Byte), (absorbedBlocks S m).length = (S.count.toNat % 64 + m.length) / 64) ∧
  (∀ (s : State) (off len : Nat),
    (off + len ≤ 4096 → compressions (.update off len) s = (s.live.count.toNat % 64 + len) / 64 ∧
      compressions (.update off len) s ≤ 64) ∧
    (4096 < off + len → compressions (.update off len) s = 0))

/-! ## State transfer (43_state_transfer) -/

/-- R75, R77: EXPORT completes in every state, writing the header 04 40 00 00 and then words, buffer and count of LIVE
at their places in XFER; every other RAM byte, and everything but ERR, is unchanged. -/
def Obligations.ExportWritesTheBlobOfLive : Prop :=
  ∀ s : State, ∃ t, exec .exportState s = .next t ∧
    t.ramByte 0x0100 = 0x04 ∧ t.ramByte 0x0101 = 0x40 ∧ t.ramByte 0x0102 = 0x00 ∧ t.ramByte 0x0103 = 0x00 ∧
    xferHolds t s.live ∧ (∀ a, a < 0x0100 ∨ 0x015C ≤ a → t.ramByte a = s.ramByte a) ∧
    t = { s with ram := t.ram, err := 0 }

/-- R76, R78: RESTORE 92 on a correct header completes, whatever words, buffer and count the blob holds; LIVE is then
exactly what XFER holds, DVALID and ERR are 0 and nothing else changes. Another length, or a wrong header, raises
MALFORMED_STATE with LIVE as it was. -/
def Obligations.RestoreInstallsWhatXferHolds : Prop :=
  ∀ s : State,
    (¬ malformedHeader s → ∃ t, exec (.restore 92) s = .next t ∧ xferHolds s t.live ∧
      t = { s with live := t.live, dvalid := false, err := 0 }) ∧
    (∀ len, len ≠ 92 ∨ malformedHeader s → exec (.restore len) s = .next (faulted s 3))

/-- R79: COMPARE 92 on a correct header completes; EQ is 1 exactly when XFER holds LIVE's words, all 64 buffer bytes and
count; nothing else but ERR changes. Another length, or a wrong header, raises MALFORMED_STATE with EQ as it was. -/
def Obligations.CompareTestsAllOfLive : Prop :=
  ∀ s : State,
    (¬ malformedHeader s → ∃ t, exec (.compare 92) s = .next t ∧ (t.eq = true ↔ xferHolds s s.live) ∧
      t = { s with eq := t.eq, err := 0 }) ∧
    (∀ len, len ≠ 92 ∨ malformedHeader s → exec (.compare len) s = .next (faulted s 3))

/-- R80: EXPORT then RESTORE 92 gives LIVE back exactly, and COMPARE 92 after EXPORT gives EQ = 1. -/
def Obligations.ExportThenRestoreIsTheIdentity : Prop :=
  ∀ s : State, ∃ t, exec .exportState s = .next t ∧
    (∃ u, exec (.restore 92) t = .next u ∧ u.live = s.live ∧ u = { t with dvalid := false, err := 0 }) ∧
    (∃ u, exec (.compare 92) t = .next u ∧ u.eq = true)

/-- An exported state restored on any engine and fed the rest of an input gives the digest of the whole input,
split at any byte (R80; `md5` is the one-piece MD5 of the model: log entry 14). -/
def Obligations.ResumedStreamHashesLikeTheWhole : Prop :=
  ∀ (s t e : State) (m x : List Byte), Represents s.live m → exec .exportState s = .next t →
    (∀ k < 92, e.ramByte (0x0100 + k) = t.ramByte (0x0100 + k)) →
    ∃ e', exec (.restore 92) e = .next e' ∧ e'.live = s.live ∧ (digestOf (absorb e'.live x)).toList = md5 (m ++ x)
end

