-- ==== Sys2Proof/Laws/Bytes.lean ====
section
/-! SUPPORT. Byte orders and blocks: each little-endian reading is the inverse of its writing, and what a block holds
after a write. -/

namespace Sys2Proof

@[simp] theorem bytesLe32_length (w : Word) : (bytesLe32 w).length = 4 := rfl
@[simp] theorem bytesLe64_length (v : Count) : (bytesLe64 v).length = 8 := rfl

/-- Byte `k` of a word's bytes. -/
theorem getD_bytesLe32 (w : Word) (k : Nat) (h : k < 4) : (bytesLe32 w).getD k 0 = (w >>> (8 * k)).setWidth 8 := by
  have hk : k = 0 ∨ k = 1 ∨ k = 2 ∨ k = 3 := by omega
  rcases hk with rfl | rfl | rfl | rfl <;> simp [bytesLe32]

/-- Byte `k` of a count's bytes. -/
theorem getD_bytesLe64 (v : Count) (k : Nat) (h : k < 8) : (bytesLe64 v).getD k 0 = (v >>> (8 * k)).setWidth 8 := by
  have hk : k = 0 ∨ k = 1 ∨ k = 2 ∨ k = 3 ∨ k = 4 ∨ k = 5 ∨ k = 6 ∨ k = 7 := by omega
  rcases hk with rfl | rfl | rfl | rfl | rfl | rfl | rfl | rfl <;>
    simp only [bytesLe64, bytesLe32, List.cons_append, List.nil_append, List.getD_cons_zero, List.getD_cons_succ] <;>
    apply BitVec.eq_of_getLsbD_eq <;> intro j hj <;>
    simp [BitVec.getLsbD_setWidth, BitVec.getLsbD_ushiftRight, hj, ← Nat.add_assoc] <;> omega

/-- Bit `r` of byte `q` of four joined bytes. -/
theorem getLsbD_joined (b0 b1 b2 b3 : Byte) (q r : Nat) (hq : q < 4) (hr : r < 8) :
    (b0.setWidth 32 ||| b1.setWidth 32 <<< 8 ||| b2.setWidth 32 <<< 16 ||| b3.setWidth 32 <<< 24 : Word).getLsbD
      (8 * q + r) = ([b0, b1, b2, b3].getD q 0).getLsbD r := by
  have hlow : ∀ (b : Byte) k, 8 ≤ k → b.getLsbD k = false := fun b k hk => BitVec.getLsbD_of_ge b k hk
  have hq : q = 0 ∨ q = 1 ∨ q = 2 ∨ q = 3 := by omega
  simp only [BitVec.getLsbD_or, BitVec.getLsbD_shiftLeft, BitVec.getLsbD_setWidth]
  rcases hq with rfl | rfl | rfl | rfl
  · simp [hr, show r < 16 by omega, show r < 24 by omega, show r < 32 by omega]
  · simp [show r < 32 by omega, show 8 + r < 16 by omega, show 8 + r < 24 by omega, show 8 + r < 32 by omega]
  · simp [hlow b0 (16 + r) (by omega), hlow b1 (16 + r - 8) (by omega), show r < 32 by omega,
      show 16 + r < 24 by omega, show 16 + r < 32 by omega]
  · simp [hlow b0 (24 + r) (by omega), hlow b1 (24 + r - 8) (by omega), hlow b2 (24 + r - 16) (by omega),
      show r < 32 by omega, show 24 + r < 32 by omega]

/-- Bit `j` of byte `k` of a word read little-endian. -/
theorem getLsbD_le32 (B : List Byte) (i k j : Nat) (hk : k < 4) (hj : j < 8) :
    (le32 B i).getLsbD (8 * k + j) = (B.getD (i + k) 0).getLsbD j := by
  rw [le32, getLsbD_joined _ _ _ _ _ _ hk hj]
  have : k = 0 ∨ k = 1 ∨ k = 2 ∨ k = 3 := by omega
  rcases this with rfl | rfl | rfl | rfl <;> rfl

/-- Byte `k` of a word read little-endian. -/
theorem byte_le32 (B : List Byte) (i k : Nat) (h : k < 4) :
    ((le32 B i) >>> (8 * k)).setWidth 8 = B.getD (i + k) 0 := by
  apply BitVec.eq_of_getLsbD_eq
  intro j hj
  rw [BitVec.getLsbD_setWidth, BitVec.getLsbD_ushiftRight, getLsbD_le32 _ _ _ _ h hj]
  simp only [hj, decide_true, Bool.true_and]

/-- Byte `k` of a count read little-endian. -/
theorem byte_le64 (B : List Byte) (i k : Nat) (h : k < 8) :
    ((le64 B i) >>> (8 * k)).setWidth 8 = B.getD (i + k) 0 := by
  apply BitVec.eq_of_getLsbD_eq
  intro j hj
  simp only [le64, BitVec.getLsbD_setWidth, BitVec.getLsbD_ushiftRight, BitVec.getLsbD_or, BitVec.getLsbD_shiftLeft,
    hj, decide_true, Bool.true_and]
  by_cases hk : k < 4
  · have h1 : 8 * k + j < 32 := by omega
    have h2 : 8 * k + j < 64 := by omega
    rw [getLsbD_le32 B i k j hk hj]
    simp only [h1, h2, decide_true, Bool.true_and, Bool.not_true, Bool.and_false, Bool.false_and, Bool.or_false]
  · have h1 : ¬ 8 * k + j < 32 := by omega
    have h2 : 8 * k + j < 64 := by omega
    have h3 : 8 * k + j - 32 < 64 := by omega
    rw [BitVec.getLsbD_of_ge (le32 B i) _ (by omega), show 8 * k + j - 32 = 8 * (k - 4) + j by omega,
      getLsbD_le32 B (i + 4) (k - 4) j (by omega) hj, show i + 4 + (k - 4) = i + k by omega]
    have h4 : 8 * (k - 4) + j < 64 := by omega
    simp only [h1, h2, h4, decide_true, decide_false, Bool.true_and, Bool.not_false, Bool.and_true, Bool.and_false,
      Bool.false_or]

/-- Two words with the same bytes are equal. -/
theorem word_ext {v w : Word}
    (h : ∀ k < 4, ((v >>> (8 * k)).setWidth 8 : Byte) = (w >>> (8 * k)).setWidth 8) : v = w := by
  apply BitVec.eq_of_getLsbD_eq
  intro n hn
  have := congrArg (fun b : Byte => b.getLsbD (n % 8)) (h (n / 8) (by omega))
  simpa [BitVec.getLsbD_setWidth, BitVec.getLsbD_ushiftRight, Nat.div_add_mod, Nat.mod_lt] using this

/-- Two counts with the same bytes are equal. -/
theorem count_ext {v w : Count}
    (h : ∀ k < 8, ((v >>> (8 * k)).setWidth 8 : Byte) = (w >>> (8 * k)).setWidth 8) : v = w := by
  apply BitVec.eq_of_getLsbD_eq
  intro n hn
  have := congrArg (fun b : Byte => b.getLsbD (n % 8)) (h (n / 8) (by omega))
  simpa [BitVec.getLsbD_setWidth, BitVec.getLsbD_ushiftRight, Nat.div_add_mod, Nat.mod_lt] using this

/-- Reading back a word's bytes gives the word. -/
theorem le32_bytesLe32 (w : Word) : le32 (bytesLe32 w) 0 = w :=
  word_ext fun k hk => by rw [byte_le32 _ _ _ hk, Nat.zero_add, getD_bytesLe32 _ _ hk]

/-- Reading back a count's bytes gives the count. -/
theorem le64_bytesLe64 (v : Count) : le64 (bytesLe64 v) 0 = v :=
  count_ext fun k hk => by rw [byte_le64 _ _ _ hk, Nat.zero_add, getD_bytesLe64 _ _ hk]

/-- Byte `k` of a block made of a byte sequence. -/
theorem getElem_blockOf (m : List Byte) (k : Nat) (h : k < 64) : (blockOf m)[k] = m.getD k 0 := by
  simp [blockOf]

/-- Byte `k` of a block after a write: what was written in range, what was there elsewhere. -/
theorem getElem_blockWrite (B : Block) (i : Nat) (m : List Byte) (k : Nat) (h : k < 64) :
    (blockWrite B i m)[k] = if i ≤ k ∧ k < i + m.length then m.getD (k - i) 0 else B[k] := by
  induction m generalizing B i with
  | nil => simp [blockWrite]
  | cons x xs ih =>
    rw [blockWrite, ih]
    simp only [List.length_cons]
    by_cases hk : i = k
    · subst hk; simp
    · rw [Vector.getElem_setIfInBounds_ne h hk]
      by_cases hin : i + 1 ≤ k ∧ k < i + 1 + xs.length
      · rw [if_pos hin, if_pos ⟨by omega, by omega⟩]
        obtain ⟨d, rfl⟩ : ∃ d, k = i + 1 + d := ⟨k - (i + 1), by omega⟩
        simp [show i + 1 + d - i = d + 1 by omega]
      · rw [if_neg hin, if_neg (by omega)]

/-- The bytes of a block after a write that fits. -/
theorem toList_blockWrite (B : Block) (i : Nat) (m : List Byte) (h : i + m.length ≤ 64) :
    (blockWrite B i m).toList = B.toList.take i ++ m ++ B.toList.drop (i + m.length) := by
  rw [List.append_assoc]
  refine List.ext_getElem (by simp; omega) fun k h1 h2 => ?_
  have hk : k < 64 := by simpa using h1
  rw [Vector.getElem_toList, getElem_blockWrite _ _ _ _ hk]
  by_cases h3 : k < i
  · rw [if_neg (by omega), List.getElem_append_left (by simp; omega)]
    simp
  · rw [List.getElem_append_right (by simp; omega)]
    by_cases h4 : k < i + m.length
    · have h5 : k - i < m.length := by omega
      rw [if_pos ⟨by omega, h4⟩, List.getElem_append_left (by simp; omega)]
      simp [List.getD, h5, show min i 64 = i by omega]
    · rw [if_neg (by omega), List.getElem_append_right (by simp; omega)]
      simp only [List.length_take, Vector.length_toList, List.getElem_drop, Vector.getElem_toList]
      congr 1
      omega

end Sys2Proof
end

