-- ==== Sys2Proof/Laws/Absorb.lean ====
section
/-! SUPPORT. What the absorb procedure does, said once: the blocks it compresses, the valid prefix it leaves and the count,
each in terms of the buffered bytes followed by the chunk. -/

namespace Sys2Proof.Machine

/-! ## Windows -/

@[simp] theorem windows_length (m : List Byte) (k : Nat) : (windows m k).length = k := by
  induction k generalizing m with
  | zero => rfl
  | succ k ih => simp [windows, ih]

/-- A block reads the first 64 bytes only. -/
theorem blockOf_append (a b : List Byte) (h : 64 ≤ a.length) : blockOf (a ++ b) = blockOf a := by
  refine Vector.ext fun k hk => ?_
  rw [getElem_blockOf _ _ hk, getElem_blockOf _ _ hk]
  simp [List.getD, List.getElem?_append, show k < a.length by omega]

/-- `k` windows read the first `64 * k` bytes only. -/
theorem windows_append_left (a b : List Byte) (k : Nat) (h : 64 * k ≤ a.length) : windows (a ++ b) k = windows a k := by
  induction k generalizing a with
  | zero => rfl
  | succ k ih =>
    rw [windows, windows, blockOf_append _ _ (by omega), List.drop_append_of_le_length (by omega),
      ih _ (by simp; omega)]

/-- The windows after the first `j` are the windows of the bytes after the first `64 * j`. -/
theorem windows_add (m : List Byte) (j k : Nat) : windows m (j + k) = windows m j ++ windows (m.drop (64 * j)) k := by
  induction j generalizing m with
  | zero => simp [windows]
  | succ j ih =>
    rw [show j + 1 + k = (j + k) + 1 by omega, windows, ih, windows, List.cons_append, List.drop_drop,
      show 64 + 64 * j = 64 * (j + 1) by omega]

/-! ## The index and the valid prefix -/

theorem index_lt (S : DigestState) : S.index < 64 := Nat.mod_lt _ (by decide)

@[simp] theorem validPrefix_length (S : DigestState) : S.validPrefix.length = S.index := by
  have := index_lt S
  simp [DigestState.validPrefix]
  omega

/-- The count after absorbing, modulo 2^64 (R63). -/
theorem absorb_count_toNat (S : DigestState) (m : List Byte) :
    (absorb S m).count.toNat = (S.count.toNat + m.length) % 2 ^ 64 := by
  simp [absorb]

/-- The index after absorbing: the wrap of the count does not disturb it, since 64 divides 2^64. -/
theorem absorb_index (S : DigestState) (m : List Byte) : (absorb S m).index = (S.index + m.length) % 64 := by
  simp only [DigestState.index, absorb_count_toNat]
  omega

/-! ## Absorb -/

/-- The filled buffer is the buffered bytes and the head of the chunk. -/
theorem toList_filled (S : DigestState) (m : List Byte) (h : S.room ≤ m.length) :
    (S.filled m).toList = S.validPrefix ++ m.take S.room := by
  have hi := index_lt S
  have hr : S.index + (m.take S.room).length = 64 := by
    simp only [List.length_take, DigestState.room] at *
    omega
  rw [DigestState.filled, toList_blockWrite _ _ _ (by omega), hr]
  simp [DigestState.validPrefix]

/-- The filled buffer is the first block of the buffered bytes followed by the chunk. -/
theorem filled_eq_blockOf (S : DigestState) (m : List Byte) (h : S.room ≤ m.length) :
    S.filled m = blockOf (S.validPrefix ++ m) := by
  have hi := index_lt S
  have hr : S.room = 64 - S.index := rfl
  rw [← List.take_append_drop S.room m, ← List.append_assoc, blockOf_append _ _ (by simp; omega), List.take_append_drop]
  refine Vector.ext fun k hk => ?_
  rw [getElem_blockOf _ _ hk, ← toList_filled S m h]
  simp [List.getD, hk]

/-- The blocks absorb compresses are the complete blocks of the buffered bytes followed by the chunk (R63, R64). -/
theorem absorbedBlocks_eq (S : DigestState) (m : List Byte) :
    absorbedBlocks S m = windows (S.validPrefix ++ m) ((S.index + m.length) / 64) := by
  have hi := index_lt S
  have hr : S.room = 64 - S.index := rfl
  unfold absorbedBlocks
  split
  · next h =>
    rw [show (S.index + m.length) / 64 = (m.length - S.room) / 64 + 1 by omega, windows, filled_eq_blockOf S m h]
    congr 2
    have hd : S.validPrefix.drop 64 = [] := List.drop_of_length_le (by simp; omega)
    rw [List.drop_append, hd, List.nil_append, validPrefix_length, ← hr]
  · rw [show (S.index + m.length) / 64 = 0 by omega, windows]

/-- The valid prefix absorb leaves is what is behind the complete blocks (R63, R13). -/
theorem absorb_validPrefix (S : DigestState) (m : List Byte) :
    (absorb S m).validPrefix = (S.validPrefix ++ m).drop (64 * ((S.index + m.length) / 64)) := by
  have hi := index_lt S
  have hr : S.room = 64 - S.index := rfl
  rw [DigestState.validPrefix, absorb_index]
  show List.take _ (absorbedBuffer S m).toList = _
  unfold absorbedBuffer
  split
  · next h =>
    have hl : (m.drop (S.room + 64 * ((m.length - S.room) / 64))).length = (S.index + m.length) % 64 := by
      simp only [List.length_drop]
      omega
    have hd : S.validPrefix.drop (64 * ((S.index + m.length) / 64)) = [] :=
      List.drop_of_length_le (by rw [validPrefix_length]; omega)
    rw [toList_blockWrite _ _ _ (by omega), List.take_zero, List.nil_append, List.take_append_of_le_length (by omega),
      List.take_of_length_le (by omega), List.drop_append, hd, List.nil_append, validPrefix_length]
    congr 1
    omega
  · next h =>
    rw [show (S.index + m.length) / 64 = 0 by omega, show (S.index + m.length) % 64 = S.index + m.length by omega,
      toList_blockWrite _ _ _ (by omega), List.take_append_of_le_length (by simp; omega),
      List.take_of_length_le (by simp)]
    rfl

/-- The buffer absorb leaves when the chunk does not fill it (R63). -/
theorem absorb_buffer_short (S : DigestState) (m : List Byte) (h : S.index + m.length < 64) :
    (absorb S m).buffer = blockWrite S.buffer S.index m := by
  have hr : S.room = 64 - S.index := rfl
  exact if_neg (by omega)

/-- The buffer absorb leaves when the chunk fills it: the remainder over the first block (R63). -/
theorem absorb_buffer_long (S : DigestState) (m : List Byte) (h : 64 ≤ S.index + m.length) :
    (absorb S m).buffer = blockWrite (blockOf (S.validPrefix ++ m)) 0 (absorb S m).validPrefix := by
  have hi := index_lt S
  have hr : S.room = 64 - S.index := rfl
  have hd : S.validPrefix.drop (64 * ((S.index + m.length) / 64)) = [] :=
    List.drop_of_length_le (by rw [validPrefix_length]; omega)
  rw [absorb_validPrefix, ← filled_eq_blockOf S m (by omega), List.drop_append, hd, List.nil_append, validPrefix_length,
    show 64 * ((S.index + m.length) / 64) - S.index = S.room + 64 * ((m.length - S.room) / 64) by omega]
  exact if_pos (by omega)

/-- Absorbing no bytes changes nothing (R63: "no-op"). -/
theorem absorb_nil (S : DigestState) : absorb S [] = S := by
  have hi := index_lt S
  have hr : S.room ≠ 0 := by
    simp only [DigestState.room]
    omega
  simp [absorb, absorbedBlocks, absorbedBuffer, hr, blockWrite]

/-! ## Holding an input -/

/-- The fresh state holds the empty input (R13). -/
theorem represents_fresh : Represents DigestState.fresh [] :=
  ⟨rfl, by simp [DigestState.validPrefix, DigestState.index, DigestState.fresh, openTail], rfl⟩

/-- The index of a state that holds an input. -/
theorem Represents.index_eq {S : DigestState} {m : List Byte} (h : Represents S m) : S.index = m.length % 64 := by
  rw [DigestState.index, h.2.2, BitVec.toNat_ofNat]
  omega

end Sys2Proof.Machine
end

