-- ==== Sys2Proof/Laws/Memory.lean ====
section
/-! SUPPORT. The laws of the RAM list: read after write, writes leave other offsets alone, and every operation keeps the
canonical form. -/

namespace Sys2Proof.Machine

/-- A read after a store: the stored byte at its offset, the old one elsewhere. -/
theorem find_store (m : Memory) (a b : Nat) (v : Byte) :
    Memory.find b (Memory.store a v m) = if b = a then some v else Memory.find b m := by
  induction m with
  | nil => simp [Memory.store, Memory.find]
  | cons c m ih =>
    obtain ⟨k, u⟩ := c
    simp only [Memory.store]
    split
    · simp [Memory.find]
    · split
      · subst_vars
        by_cases hb : b = k <;> simp [Memory.find, hb]
      · by_cases hb : b = k
        · subst hb
          simp only [Memory.find, if_true]
          rw [if_neg (by omega)]
        · simp [Memory.find, hb, ih]

/-- Every entry after a store is the stored one or an old one. -/
theorem mem_store {m : Memory} {a : Nat} {v : Byte} {c : Host.Cell} (h : c ∈ Memory.store a v m) :
    c = (a, v) ∨ c ∈ m := by
  induction m with
  | nil => simpa [Memory.store] using h
  | cons d m ih =>
    obtain ⟨k, u⟩ := d
    simp only [Memory.store] at h
    split at h
    · simpa using h
    · split at h
      · rcases List.mem_cons.1 h with h | h
        · exact .inl h
        · exact .inr (List.mem_cons_of_mem _ h)
      · rcases List.mem_cons.1 h with h | h
        · exact .inr (by simp [h])
        · exact (ih h).imp id (List.mem_cons_of_mem _)

/-- A store keeps the offsets strictly rising. -/
theorem store_wf {m : Memory} (a : Nat) (v : Byte) (h : m.wf) : Memory.wf (Memory.store a v m) := by
  induction m with
  | nil => simp [Memory.store, Memory.wf]
  | cons d m ih =>
    obtain ⟨k, u⟩ := d
    have hk := (List.pairwise_cons.1 h).1
    have hm := (List.pairwise_cons.1 h).2
    simp only [Memory.store]
    split
    · next hlt =>
      refine List.pairwise_cons.2 ⟨fun c hc => ?_, h⟩
      rcases List.mem_cons.1 hc with rfl | hc
      · exact hlt
      · exact Nat.lt_trans hlt (hk c hc)
    · split
      · next heq => exact List.pairwise_cons.2 ⟨fun c hc => heq ▸ hk c hc, hm⟩
      · refine List.pairwise_cons.2 ⟨fun c hc => ?_, ih hm⟩
        rcases mem_store hc with rfl | hc
        · show k < a
          omega
        · exact hk c hc

/-- A read after storing bytes: the stored byte inside their range, the old one outside it. -/
theorem find_storeBytes (m : Memory) (a b : Nat) (vs : List Byte) :
    Memory.find b (m.storeBytes a vs) = if a ≤ b ∧ b < a + vs.length then vs[b - a]? else Memory.find b m := by
  induction vs generalizing m a with
  | nil => simp [Memory.storeBytes]
  | cons v vs ih =>
    rw [Memory.storeBytes, ih, find_store]
    simp only [List.length_cons]
    by_cases hb : b = a
    · subst hb; simp
    · by_cases hin : a + 1 ≤ b ∧ b < a + 1 + vs.length
      · rw [if_pos hin, if_pos ⟨by omega, by omega⟩]
        obtain ⟨d, rfl⟩ : ∃ d, b = a + 1 + d := ⟨b - (a + 1), by omega⟩
        simp [show a + 1 + d - a = d + 1 from by omega]
      · rw [if_neg hin, if_neg hb, if_neg (by omega)]

/-- Storing bytes keeps the offsets strictly rising. -/
theorem storeBytes_wf {m : Memory} (a : Nat) (vs : List Byte) (h : m.wf) : Memory.wf (m.storeBytes a vs) := by
  induction vs generalizing m a with
  | nil => exact h
  | cons v vs ih => exact ih (a + 1) (store_wf a v h)

/-- Every entry after storing bytes lies in their range or is an old one. -/
theorem mem_storeBytes {m : Memory} {a : Nat} {vs : List Byte} {c : Host.Cell} (h : c ∈ m.storeBytes a vs) :
    (a ≤ c.1 ∧ c.1 < a + vs.length) ∨ c ∈ m := by
  induction vs generalizing m a with
  | nil => exact .inr h
  | cons v vs ih =>
    rcases ih h with h | h
    · exact .inl ⟨by omega, by simp only [List.length_cons]; omega⟩
    · rcases mem_store h with rfl | h
      · exact .inl ⟨Nat.le_refl a, by simp only [List.length_cons]; omega⟩
      · exact .inr h

/-- The RAM byte after a write of bytes: what was written in range, what was there elsewhere. -/
theorem ramByte_writeRam (s : State) (a b : Nat) (vs : List Byte) :
    (s.writeRam a vs).ramByte b = if a ≤ b ∧ b < a + vs.length then vs.getD (b - a) 0 else s.ramByte b := by
  simp only [State.ramByte, State.writeRam, find_storeBytes]
  split
  · next h =>
    have : b - a < vs.length := by omega
    simp [List.getD, this]
  · rfl

@[simp] theorem ramBytes_length (s : State) (a n : Nat) : (s.ramBytes a n).length = n := by
  induction n generalizing a with
  | zero => rfl
  | succ n ih => simp [State.ramBytes, ih]

/-- Byte `k` of a run of RAM bytes. -/
theorem getD_ramBytes (s : State) (a n k : Nat) (h : k < n) : (s.ramBytes a n).getD k 0 = s.ramByte (a + k) := by
  induction n generalizing a k with
  | zero => omega
  | succ n ih =>
    cases k with
    | zero => simp [State.ramBytes]
    | succ k =>
      simp only [State.ramBytes, List.getD_cons_succ]
      rw [ih (a + 1) k (by omega)]
      congr 1
      omega

/-- A run of RAM bytes, as a list over its offsets. -/
theorem ramBytes_eq_map (s : State) (a n : Nat) : s.ramBytes a n = (List.range n).map fun k => s.ramByte (a + k) := by
  refine List.ext_getElem (by simp) fun k h _ => ?_
  have hk : k < n := by simpa using h
  have := getD_ramBytes s a n k hk
  simpa [List.getD, hk] using this

/-- Two states whose RAM bytes read the same have the same runs of RAM bytes. -/
theorem ramBytes_congr {s t : State} (h : ∀ a, t.ramByte a = s.ramByte a) (a n : Nat) :
    t.ramBytes a n = s.ramBytes a n := by
  simp only [ramBytes_eq_map, h]

end Sys2Proof.Machine
end

