-- ==== Sys2Proof/Laws/State.lean ====
section
/-! SUPPORT. One lemma per field and named state update, so that no later proof unfolds a record update; and the cases of
the one checked form a command has. -/

namespace Sys2Proof.Machine

variable (s : State)

section raiseFault
variable (f : EngineFault)
@[simp] theorem raiseFault_live : (s.raiseFault f).live = s.live := rfl
@[simp] theorem raiseFault_fin : (s.raiseFault f).fin = s.fin := rfl
@[simp] theorem raiseFault_ram : (s.raiseFault f).ram = s.ram := rfl
@[simp] theorem raiseFault_digest : (s.raiseFault f).digest = s.digest := rfl
@[simp] theorem raiseFault_hex : (s.raiseFault f).hex = s.hex := rfl
@[simp] theorem raiseFault_err : (s.raiseFault f).err = faultCode f := rfl
@[simp] theorem raiseFault_dvalid : (s.raiseFault f).dvalid = s.dvalid := rfl
@[simp] theorem raiseFault_eq : (s.raiseFault f).eq = s.eq := rfl
@[simp] theorem raiseFault_faultSeen : (s.raiseFault f).faultSeen = true := rfl
@[simp] theorem raiseFault_pending : (s.raiseFault f).pending = s.pending := rfl
@[simp] theorem raiseFault_pc : (s.raiseFault f).pc = s.pc := rfl
@[simp] theorem raiseFault_response : (s.raiseFault f).response = s.response := rfl
@[simp] theorem raiseFault_ramDraw : (s.raiseFault f).ramDraw = s.ramDraw := rfl
@[simp] theorem raiseFault_ramByte (a : Nat) : (s.raiseFault f).ramByte a = s.ramByte a := rfl
end raiseFault

section complete
@[simp] theorem complete_live : s.complete.live = s.live := rfl
@[simp] theorem complete_fin : s.complete.fin = s.fin := rfl
@[simp] theorem complete_ram : s.complete.ram = s.ram := rfl
@[simp] theorem complete_digest : s.complete.digest = s.digest := rfl
@[simp] theorem complete_hex : s.complete.hex = s.hex := rfl
@[simp] theorem complete_err : s.complete.err = 0 := rfl
@[simp] theorem complete_dvalid : s.complete.dvalid = s.dvalid := rfl
@[simp] theorem complete_eq : s.complete.eq = s.eq := rfl
@[simp] theorem complete_faultSeen : s.complete.faultSeen = s.faultSeen := rfl
@[simp] theorem complete_pending : s.complete.pending = s.pending := rfl
@[simp] theorem complete_pc : s.complete.pc = s.pc := rfl
@[simp] theorem complete_response : s.complete.response = s.response := rfl
@[simp] theorem complete_ramDraw : s.complete.ramDraw = s.ramDraw := rfl
@[simp] theorem complete_ramByte (a : Nat) : s.complete.ramByte a = s.ramByte a := rfl
end complete

section writeRam
variable (a : Nat) (v : List Byte)
@[simp] theorem writeRam_live : (s.writeRam a v).live = s.live := rfl
@[simp] theorem writeRam_fin : (s.writeRam a v).fin = s.fin := rfl
@[simp] theorem writeRam_ram : (s.writeRam a v).ram = s.ram.storeBytes a v := rfl
@[simp] theorem writeRam_digest : (s.writeRam a v).digest = s.digest := rfl
@[simp] theorem writeRam_hex : (s.writeRam a v).hex = s.hex := rfl
@[simp] theorem writeRam_err : (s.writeRam a v).err = s.err := rfl
@[simp] theorem writeRam_dvalid : (s.writeRam a v).dvalid = s.dvalid := rfl
@[simp] theorem writeRam_eq : (s.writeRam a v).eq = s.eq := rfl
@[simp] theorem writeRam_faultSeen : (s.writeRam a v).faultSeen = s.faultSeen := rfl
@[simp] theorem writeRam_pending : (s.writeRam a v).pending = s.pending := rfl
@[simp] theorem writeRam_pc : (s.writeRam a v).pc = s.pc := rfl
@[simp] theorem writeRam_response : (s.writeRam a v).response = s.response := rfl
@[simp] theorem writeRam_ramDraw : (s.writeRam a v).ramDraw = s.ramDraw := rfl
end writeRam

section absorbLive
variable (m : List Byte)
@[simp] theorem absorbLive_live : (s.absorbLive m).live = absorb s.live m := rfl
@[simp] theorem absorbLive_fin : (s.absorbLive m).fin = s.fin := rfl
@[simp] theorem absorbLive_ram : (s.absorbLive m).ram = s.ram := rfl
@[simp] theorem absorbLive_digest : (s.absorbLive m).digest = s.digest := rfl
@[simp] theorem absorbLive_hex : (s.absorbLive m).hex = s.hex := rfl
@[simp] theorem absorbLive_err : (s.absorbLive m).err = s.err := rfl
@[simp] theorem absorbLive_dvalid : (s.absorbLive m).dvalid = dvalidAfterUpdate m.length s.dvalid := rfl
@[simp] theorem absorbLive_eq : (s.absorbLive m).eq = s.eq := rfl
@[simp] theorem absorbLive_faultSeen : (s.absorbLive m).faultSeen = s.faultSeen := rfl
@[simp] theorem absorbLive_pending : (s.absorbLive m).pending = s.pending := rfl
@[simp] theorem absorbLive_pc : (s.absorbLive m).pc = s.pc := rfl
@[simp] theorem absorbLive_response : (s.absorbLive m).response = s.response := rfl
@[simp] theorem absorbLive_ramDraw : (s.absorbLive m).ramDraw = s.ramDraw := rfl
@[simp] theorem absorbLive_ramByte (a : Nat) : (s.absorbLive m).ramByte a = s.ramByte a := rfl
end absorbLive

section takeOp
variable (rest : List HostOp)
@[simp] theorem takeOp_live : (s.takeOp rest).live = s.live := rfl
@[simp] theorem takeOp_fin : (s.takeOp rest).fin = s.fin := rfl
@[simp] theorem takeOp_ram : (s.takeOp rest).ram = s.ram := rfl
@[simp] theorem takeOp_digest : (s.takeOp rest).digest = s.digest := rfl
@[simp] theorem takeOp_hex : (s.takeOp rest).hex = s.hex := rfl
@[simp] theorem takeOp_err : (s.takeOp rest).err = s.err := rfl
@[simp] theorem takeOp_dvalid : (s.takeOp rest).dvalid = s.dvalid := rfl
@[simp] theorem takeOp_eq : (s.takeOp rest).eq = s.eq := rfl
@[simp] theorem takeOp_faultSeen : (s.takeOp rest).faultSeen = s.faultSeen := rfl
@[simp] theorem takeOp_pending : (s.takeOp rest).pending = rest := rfl
@[simp] theorem takeOp_pc : (s.takeOp rest).pc = s.pc + 1 := rfl
@[simp] theorem takeOp_response : (s.takeOp rest).response = s.response := rfl
@[simp] theorem takeOp_ramDraw : (s.takeOp rest).ramDraw = s.ramDraw := rfl
@[simp] theorem takeOp_ramByte (a : Nat) : (s.takeOp rest).ramByte a = s.ramByte a := rfl
end takeOp

section respond
variable (r : Response)
@[simp] theorem respond_live : (s.respond r).live = s.live := rfl
@[simp] theorem respond_fin : (s.respond r).fin = s.fin := rfl
@[simp] theorem respond_ram : (s.respond r).ram = s.ram := rfl
@[simp] theorem respond_digest : (s.respond r).digest = s.digest := rfl
@[simp] theorem respond_hex : (s.respond r).hex = s.hex := rfl
@[simp] theorem respond_err : (s.respond r).err = s.err := rfl
@[simp] theorem respond_dvalid : (s.respond r).dvalid = s.dvalid := rfl
@[simp] theorem respond_eq : (s.respond r).eq = s.eq := rfl
@[simp] theorem respond_faultSeen : (s.respond r).faultSeen = s.faultSeen := rfl
@[simp] theorem respond_pending : (s.respond r).pending = s.pending := rfl
@[simp] theorem respond_pc : (s.respond r).pc = s.pc := rfl
@[simp] theorem respond_response : (s.respond r).response = r := rfl
@[simp] theorem respond_ramDraw : (s.respond r).ramDraw = s.ramDraw := rfl
@[simp] theorem respond_ramByte (a : Nat) : (s.respond r).ramByte a = s.ramByte a := rfl
end respond

section hardwareReset
@[simp] theorem hardwareReset_live : s.hardwareReset.live = DigestState.fresh := rfl
@[simp] theorem hardwareReset_ram : s.hardwareReset.ram = [] := rfl
@[simp] theorem hardwareReset_digest : s.hardwareReset.digest = Vector.replicate 16 0 := rfl
@[simp] theorem hardwareReset_hex : s.hardwareReset.hex = Vector.replicate 32 0 := rfl
@[simp] theorem hardwareReset_err : s.hardwareReset.err = 0 := rfl
@[simp] theorem hardwareReset_dvalid : s.hardwareReset.dvalid = false := rfl
@[simp] theorem hardwareReset_eq : s.hardwareReset.eq = false := rfl
@[simp] theorem hardwareReset_faultSeen : s.hardwareReset.faultSeen = false := rfl
@[simp] theorem hardwareReset_pending : s.hardwareReset.pending = s.pending := rfl
@[simp] theorem hardwareReset_pc : s.hardwareReset.pc = s.pc := rfl
@[simp] theorem hardwareReset_response : s.hardwareReset.response = .none := rfl
@[simp] theorem hardwareReset_ramDraw : s.hardwareReset.ramDraw = s.ramDraw + 1 := rfl
end hardwareReset

/-- Everything a checked command can do: go on with the checked value, or take the fault effect. -/
theorem checked_cases {α : Type} (c : Except EngineFault α) (body : α → State) :
    (∃ x, c = .ok x ∧ s.checked c body = body x) ∨ (∃ f, c = .error f ∧ s.checked c body = s.raiseFault f) := by
  cases c with
  | ok x => exact .inl ⟨x, rfl, rfl⟩
  | error f => exact .inr ⟨f, rfl, rfl⟩

/-- The step of a state with an operation waiting is that operation on the state with it taken. -/
theorem nextOp_cons {op : HostOp} {rest : List HostOp} (h : s.pending = op :: rest) :
    nextOp s = performOp op (s.takeOp rest) := by
  simp only [nextOp, h]

/-- With no operation waiting the run has ended. -/
theorem nextOp_nil (h : s.pending = []) : nextOp s = .fault .endOfRun := by
  simp only [nextOp, h]

end Sys2Proof.Machine
end

