-- ==== Sys2Proof/Laws/Window.lean ====
section
/-! SUPPORT. The window map and the access rules, each as a fact about offsets. -/

namespace Sys2Proof.Machine

/-- The access rule of R32, as the statements say it. -/
theorem legalAccess_iff (off size : Nat) : legalAccess off size = true ↔ aligned off size := by
  simp [legalAccess, aligned, or_assoc]

theorem regionOf_cmd (o : Nat) : regionOf o = .cmd ↔ o < 0x0004 := by
  unfold regionOf; split_ifs <;> simp <;> omega
theorem regionOf_status (o : Nat) : regionOf o = .status ↔ 0x0004 ≤ o ∧ o < 0x0008 := by
  unfold regionOf; split_ifs <;> simp <;> omega
theorem regionOf_digest (o : Nat) : regionOf o = .digest ↔ 0x0010 ≤ o ∧ o < 0x0020 := by
  unfold regionOf; split_ifs <;> simp <;> omega
theorem regionOf_hex (o : Nat) : regionOf o = .hex ↔ 0x0020 ≤ o ∧ o < 0x0040 := by
  unfold regionOf; split_ifs <;> simp <;> omega
theorem regionOf_xfer (o : Nat) : regionOf o = .xfer ↔ 0x0100 ≤ o ∧ o < 0x015C := by
  unfold regionOf; split_ifs <;> simp <;> omega
theorem regionOf_chunk (o : Nat) : regionOf o = .chunk ↔ 0x1000 ≤ o := by
  unfold regionOf; split_ifs <;> simp <;> omega
theorem regionOf_reserved (o : Nat) : regionOf o = .reserved ↔
    (0x0008 ≤ o ∧ o < 0x0010) ∨ (0x0040 ≤ o ∧ o < 0x0100) ∨ (0x015C ≤ o ∧ o < 0x1000) := by
  unfold regionOf; split_ifs <;> simp <;> omega

/-- A write that stores lies inside XFER or CHUNK, all its bytes (R35: "An aligned access lies inside one region"). -/
theorem writeKind_store {off size : Nat} (h : writeKind off size = .store) :
    aligned off size ∧ ∀ k < size, inRam (off + k) := by
  unfold writeKind at h
  split at h
  · cases h
  · next hw =>
    split at h
    · next hl =>
      rw [legalAccess_iff] at hl
      simp only [Config.windowBytes] at hw
      refine ⟨hl, fun k hk => ?_⟩
      simp only [inRam]
      obtain ⟨hs, ha⟩ := hl
      split at h <;> try contradiction
      · split at h <;> contradiction
      · next hr => rw [regionOf_xfer] at hr; rcases hs with rfl | rfl | rfl <;> omega
      · next hr => rw [regionOf_chunk] at hr; rcases hs with rfl | rfl | rfl <;> omega
    · cases h

/-- An aligned write inside XFER or CHUNK stores its bytes (R35). -/
theorem writeKind_inRam {off size : Nat} (hr : inRam off) (ha : aligned off size) : writeKind off size = .store := by
  have hw : ¬ Config.windowBytes ≤ off := by simp only [Config.windowBytes, inRam] at *; omega
  simp only [writeKind, hw, if_false, (legalAccess_iff off size).2 ha, if_true]
  rcases hr with hr | hr
  · rw [(regionOf_xfer off).2 hr]
  · rw [(regionOf_chunk off).2 hr.1]

/-- A write that issues a command is a 4-byte write to CMD (R35, R36). -/
theorem writeKind_command {off size : Nat} (h : writeKind off size = .command) : off = 0 ∧ size = 4 := by
  unfold writeKind at h
  split at h
  · cases h
  · split at h
    · next hl =>
      rw [legalAccess_iff] at hl
      split at h <;> try contradiction
      next hr =>
        rw [regionOf_cmd] at hr
        split at h
        · next h4 => subst h4; exact ⟨by have := hl.2; omega, rfl⟩
        · cases h
    · cases h

/-- The 4-byte write to CMD issues a command (R37). -/
theorem writeKind_cmd : writeKind 0x0000 4 = .command := rfl

@[simp] theorem windowBytes_length (s : State) (o n : Nat) : (s.windowBytes o n).length = n := by
  induction n generalizing o with
  | zero => rfl
  | succ n ih => simp [State.windowBytes, ih]

/-- The answer to the host is not in the window. -/
@[simp] theorem respond_windowByte (s : State) (r : Response) (o : Nat) : (s.respond r).windowByte o = s.windowByte o := rfl

@[simp] theorem respond_windowBytes (s : State) (r : Response) (o n : Nat) :
    (s.respond r).windowBytes o n = s.windowBytes o n := by
  induction n generalizing o with
  | zero => rfl
  | succ n ih => simp only [State.windowBytes, respond_windowByte, ih]

/-- A read's answer does not depend on the last answer (R36). -/
@[simp] theorem respond_hostRead (s : State) (r : Response) (off size : Nat) :
    (s.respond r).hostRead off size = s.hostRead off size := by
  simp only [State.hostRead, respond_windowBytes]

/-- Byte `k` of a run of window bytes. -/
theorem getD_windowBytes (s : State) (o n k : Nat) (h : k < n) : (s.windowBytes o n).getD k 0 = s.windowByte (o + k) := by
  induction n generalizing o k with
  | zero => omega
  | succ n ih =>
    cases k with
    | zero => simp [State.windowBytes]
    | succ k =>
      simp only [State.windowBytes, List.getD_cons_succ]
      rw [ih (o + 1) k (by omega)]
      congr 1
      omega

end Sys2Proof.Machine
end

