-- ==== Sys2Proof/Laws/Commands.lean ====
section
/-! SUPPORT. What the shared operations of the commands do: the operand checks, the blob and its reading, the stop-free
dispatch, and the host's writes. -/

namespace Sys2Proof.Machine

/-! ## Operand checks -/

/-- An UPDATE within bounds gets its slice (R66). -/
theorem chunkSlice_ok (s : State) (off len : Nat) (h : off + len ≤ 4096) :
    s.chunkSlice off len = .ok ((List.range len).map fun k => s.ramByte (0x1000 + off + k)) := by
  have : ¬ Config.chunkBytes < off + len := by simpa [Config.chunkBytes] using h
  simp only [State.chunkSlice, this, if_false, State.readChunk, ramBytes_eq_map, Config.chunkBase]

/-- An UPDATE beyond the bounds gets PRECONDITION (R66). -/
theorem chunkSlice_error (s : State) (off len : Nat) (h : 4096 < off + len) :
    s.chunkSlice off len = .error .precondition := by
  have : Config.chunkBytes < off + len := by simpa [Config.chunkBytes] using h
  simp only [State.chunkSlice, this, if_true]

/-- Byte `k` of XFER as the commands read it. -/
theorem getD_readXfer (s : State) (k : Nat) (h : k < 92) : s.readXfer.getD k 0 = s.ramByte (0x0100 + k) :=
  getD_ramBytes s _ _ k h

/-- The header check is that of R76. -/
theorem blobHeaderOk_iff (s : State) : blobHeaderOk s.readXfer = true ↔ ¬ malformedHeader s := by
  simp only [blobHeaderOk, malformedHeader, getD_readXfer s 0 (by omega), getD_readXfer s 1 (by omega),
    getD_readXfer s 2 (by omega), getD_readXfer s 3 (by omega), Bool.and_eq_true, beq_iff_eq, not_or, not_not, and_assoc]

/-- RESTORE and COMPARE of 92 bytes with a correct header get the state XFER holds (R76). -/
theorem parseBlob_ok (s : State) (h : ¬ malformedHeader s) : s.parseBlob 92 = .ok (unblob s.readXfer) := by
  simp [State.parseBlob, Config.blobBytes, (blobHeaderOk_iff s).2 h]

/-- Another length, or a wrong header, gets MALFORMED_STATE (R76). -/
theorem parseBlob_error (s : State) (len : Nat) (h : len ≠ 92 ∨ malformedHeader s) :
    s.parseBlob len = .error .malformedState := by
  by_cases hl : len = 92
  · have hm : malformedHeader s := h.resolve_left (not_not.2 hl)
    have : blobHeaderOk s.readXfer = false := by
      rw [← Bool.not_eq_true, blobHeaderOk_iff, not_not]
      exact hm
    simp [State.parseBlob, this]
  · simp [State.parseBlob, Config.blobBytes, hl]

/-! ## The blob -/

@[simp] theorem blob_length (S : DigestState) : (blob S).length = 92 := by simp [blob]

/-- The three parts of a blob behind its header, byte by byte (R75). -/
theorem getD_blob (S : DigestState) :
    (∀ k < 4, (blob S).getD (4 + k) 0 = byteOfWord S.words.a k ∧ (blob S).getD (8 + k) 0 = byteOfWord S.words.b k ∧
      (blob S).getD (12 + k) 0 = byteOfWord S.words.c k ∧ (blob S).getD (16 + k) 0 = byteOfWord S.words.d k) ∧
    (∀ (k : Nat) (h : k < 64), (blob S).getD (20 + k) 0 = S.buffer[k]) ∧
    (∀ k < 8, (blob S).getD (84 + k) 0 = byteOfCount S.count k) := by
  have hb : S.buffer.toList.length = 64 := by simp
  refine ⟨fun k hk => ?_, fun k hk => ?_, fun k hk => ?_⟩
  · have hk : k = 0 ∨ k = 1 ∨ k = 2 ∨ k = 3 := by omega
    rcases hk with rfl | rfl | rfl | rfl <;> simp [blob, bytesLe32, byteOfWord]
  · simp only [blob, List.append_assoc]
    simp only [bytesLe32, List.cons_append, List.nil_append, show 20 + k = k + 20 by omega, List.getD_cons_succ]
    simp [List.getD, List.getElem?_append, hk]
  · have : blob S = (blob S).take 84 ++ bytesLe64 S.count := by
      have : (blob S).take 84 = [0x04, 0x40, 0x00, 0x00] ++ bytesLe32 S.words.a ++ bytesLe32 S.words.b
          ++ bytesLe32 S.words.c ++ bytesLe32 S.words.d ++ S.buffer.toList := by
        rw [blob, List.take_append_of_le_length (by simp), List.take_of_length_le (by simp)]
      rw [this, blob]
    rw [this, byteOfCount, ← getD_bytesLe64 _ _ hk]
    simp [List.getD, List.getElem?_append]

/-- XFER holds the state that RESTORE and COMPARE read from it, and no other (R75, R76). -/
theorem xferHolds_iff (s : State) (S : DigestState) : xferHolds s S ↔ S = unblob s.readXfer := by
  have hb : ∀ (k : Nat) (hk : k < 64), (unblob s.readXfer).buffer[k] = s.ramByte (0x0114 + k) := fun k hk => by
    have h1 : (unblob s.readXfer).buffer[k] = (s.readXfer.drop 20).getD k 0 := getElem_blockOf _ _ hk
    have h2 : (s.readXfer.drop 20).getD k 0 = s.readXfer.getD (20 + k) 0 := by simp [List.getD]
    rw [h1, h2, getD_readXfer _ _ (by omega)]
    congr 1
    omega
  have hw : ∀ i k, i + 4 ≤ 92 → k < 4 → byteOfWord (le32 s.readXfer i) k = s.ramByte (0x0100 + i + k) := fun i k hi hk => by
    rw [byteOfWord, byte_le32 _ _ _ hk, getD_readXfer _ _ (by omega), Nat.add_assoc]
  have hc : ∀ k < 8, byteOfCount (le64 s.readXfer 84) k = s.ramByte (0x0154 + k) := fun k hk => by
    rw [byteOfCount, byte_le64 _ _ _ hk, getD_readXfer _ _ (by omega)]
    congr 1
    omega
  constructor
  · rintro ⟨h1, h2, h3⟩
    obtain ⟨⟨a, b, c, d⟩, buffer, count⟩ := S
    have e : ∀ (w : Word) i, i + 4 ≤ 92 → (∀ k < 4, s.ramByte (0x0100 + i + k) = byteOfWord w k) → w = le32 s.readXfer i :=
      fun w i hi h => word_ext fun k hk => (h k hk).symm.trans (hw i k hi hk).symm
    have e1 : a = le32 s.readXfer 4 := e a 4 (by omega) fun k hk => (h1 k hk).1
    have e2 : b = le32 s.readXfer 8 := e b 8 (by omega) fun k hk => (h1 k hk).2.1
    have e3 : c = le32 s.readXfer 12 := e c 12 (by omega) fun k hk => (h1 k hk).2.2.1
    have e4 : d = le32 s.readXfer 16 := e d 16 (by omega) fun k hk => (h1 k hk).2.2.2
    have e5 : buffer = (unblob s.readXfer).buffer := Vector.ext fun k hk => (h2 k hk).symm.trans (hb k hk).symm
    have e6 : count = le64 s.readXfer 84 := count_ext fun k hk => (h3 k hk).symm.trans (hc k hk).symm
    rw [e1, e2, e3, e4, e5, e6]
    rfl
  · rintro rfl
    exact ⟨fun k hk => ⟨(hw 4 k (by omega) hk).symm, (hw 8 k (by omega) hk).symm, (hw 12 k (by omega) hk).symm,
      (hw 16 k (by omega) hk).symm⟩, fun k hk => (hb k hk).symm, fun k hk => (hc k hk).symm⟩

/-- A blob begins with the header 04 40 00 00 (R75). -/
theorem header_blob (S : DigestState) : (blob S).getD 0 0 = 0x04 ∧ (blob S).getD 1 0 = 0x40 ∧
    (blob S).getD 2 0 = 0x00 ∧ (blob S).getD 3 0 = 0x00 := by
  simp [blob]

/-- A RAM byte after EXPORT: that of the blob inside XFER, its old value elsewhere (R77). -/
theorem ramByte_writeXfer_blob (s : State) (S : DigestState) (a : Nat) :
    (s.writeXfer (blob S)).ramByte a = if 0x0100 ≤ a ∧ a < 0x015C then (blob S).getD (a - 0x0100) 0 else s.ramByte a := by
  rw [State.writeXfer, ramByte_writeRam, blob_length, Config.xferBase]

/-- The test of COMPARE is equality of whole DigestStates (R79). -/
theorem sameDigestState_iff (S T : DigestState) : sameDigestState S T = true ↔ S = T := by
  obtain ⟨w, b, c⟩ := S
  obtain ⟨w', b', c'⟩ := T
  simp [sameDigestState, and_assoc]

/-! ## Commands and host operations -/

/-- Every command answers a next state: an engine fault is one (R84, R89). -/
theorem exec_next (i : Instr) (s : State) : ∃ t, exec i s = .next t := by
  cases i <;> exact ⟨_, rfl⟩

/-- Issuing any word answers a next state (R46). -/
theorem issueCommand_next (w : Word) (s : State) : ∃ t, issueCommand w s = .next t := by
  unfold issueCommand
  split
  · exact exec_next _ _
  · exact ⟨_, rfl⟩

/-- Every host operation answers a next state. -/
theorem performOp_next (op : HostOp) (s : State) : ∃ t, performOp op s = .next t := by
  cases op with
  | read off size => exact ⟨_, rfl⟩
  | write off size value =>
    simp only [performOp, hostWrite]
    split
    case h_3 => exact issueCommand_next _ _
    all_goals exact ⟨_, rfl⟩
  | reset => exact ⟨_, rfl⟩

/-- Whether a command faults is decided. -/
theorem commandFaults_em (i : Instr) (s : State) : (∃ f, commandFaults i s f) ∨ ∀ f, ¬ commandFaults i s f :=
  (em _).imp id not_exists.1

/-- What a command that does not fault does, as an equation for its next state. -/
def completedBy (i : Instr) (s t : State) : Prop :=
  match i with
  | .init => t = { s with live := DigestState.fresh, dvalid := false }.complete
  | .update off len => off + len ≤ 4096 ∧
      t = (s.absorbLive ((List.range len).map fun k => s.ramByte (0x1000 + off + k))).complete
  | .peek => t = { s with
      fin := finalize s.live
      digest := digestOf s.live
      hex := hexOfDigest (digestOf s.live)
      dvalid := true }.complete
  | .exportState => t = (s.writeRam 0x0100 (blob s.live)).complete
  | .restore len => len = 92 ∧ ¬ malformedHeader s ∧
      t = { s with live := unblob s.readXfer, dvalid := false }.complete
  | .compare len => len = 92 ∧ ¬ malformedHeader s ∧
      t = { s with eq := sameDigestState (unblob s.readXfer) s.live }.complete

/-- A command that faults has the fault effect alone (R84). -/
theorem exec_of_faults {i : Instr} {s : State} {f : EngineFault} (h : commandFaults i s f) :
    exec i s = .next (s.raiseFault f) := by
  cases i with
  | init => exact h.elim
  | peek => exact h.elim
  | exportState => exact h.elim
  | update off len =>
    obtain ⟨rfl, h⟩ := h
    simp only [exec, execUpdate, chunkSlice_error s off len h, State.checked]
  | restore len =>
    obtain ⟨rfl, h⟩ := h
    simp only [exec, execRestore, parseBlob_error s len h, State.checked]
  | compare len =>
    obtain ⟨rfl, h⟩ := h
    simp only [exec, execCompare, parseBlob_error s len h, State.checked]

/-- A command that does not fault completes. -/
theorem exec_of_not_faults {i : Instr} {s : State} (h : ∀ f, ¬ commandFaults i s f) :
    ∃ t, exec i s = .next t ∧ completedBy i s t := by
  cases i with
  | init => exact ⟨_, rfl, rfl⟩
  | peek => exact ⟨_, rfl, rfl⟩
  | exportState => exact ⟨_, rfl, rfl⟩
  | update off len =>
    have hb : off + len ≤ 4096 := not_lt.1 fun hl => h .precondition ⟨rfl, hl⟩
    exact ⟨_, by simp only [exec, execUpdate, chunkSlice_ok s off len hb, State.checked], hb, rfl⟩
  | restore len =>
    have hb : ¬ (len ≠ 92 ∨ malformedHeader s) := fun hm => h .malformedState ⟨rfl, hm⟩
    rw [not_or, not_not] at hb
    obtain ⟨rfl, hm⟩ := hb
    exact ⟨_, by simp only [exec, execRestore, parseBlob_ok s hm, State.checked], rfl, hm, rfl⟩
  | compare len =>
    have hb : ¬ (len ≠ 92 ∨ malformedHeader s) := fun hm => h .malformedState ⟨rfl, hm⟩
    rw [not_or, not_not] at hb
    obtain ⟨rfl, hm⟩ := hb
    exact ⟨_, by simp only [exec, execCompare, parseBlob_ok s hm, State.checked], rfl, hm, rfl⟩

/-- EVERYTHING a command can do: take the fault effect of a fault of R82, or complete. -/
theorem exec_cases {i : Instr} {s t : State} (h : exec i s = .next t) :
    (∃ f, commandFaults i s f ∧ t = s.raiseFault f) ∨ ((∀ f, ¬ commandFaults i s f) ∧ completedBy i s t) := by
  rcases commandFaults_em i s with ⟨f, hf⟩ | hf
  · rw [exec_of_faults hf] at h
    cases h
    exact .inl ⟨f, hf, rfl⟩
  · obtain ⟨u, hu, hc⟩ := exec_of_not_faults hf
    rw [hu] at h
    cases h
    exact .inr ⟨hf, hc⟩

/-- Everything the issue of a word can do (R46). -/
theorem issueCommand_cases {w : Word} {s t : State} (h : issueCommand w s = .next t) :
    (∃ i, decodeWord w = .command i ∧ exec i s = .next t) ∨
    (∃ why, decodeWord w = .illegal why ∧ t = s.raiseFault .illegalCommand) := by
  unfold issueCommand at h
  cases hd : decodeWord w with
  | command i => rw [hd] at h; exact .inl ⟨i, rfl, h⟩
  | illegal why => rw [hd] at h; cases h; exact .inr ⟨why, rfl, rfl⟩

/-- Everything a host operation can do: answer alone, store inside XFER or CHUNK, issue a word, or reset. -/
theorem performOp_cases {op : HostOp} {s t : State} (h : performOp op s = .next t) :
    (op ≠ .reset ∧ ∃ r, t = s.respond r) ∨
    (∃ off size v, op = .write off size v ∧ writeKind off size = .store ∧
      t = (s.writeRam off (writtenBytes size v)).respond .accepted) ∨
    (∃ w, op = issueOp w ∧ issueCommand w (s.respond .accepted) = .next t) ∨
    (op = .reset ∧ t = s.hardwareReset) := by
  cases op with
  | read off size => cases h; exact .inl ⟨nofun, _, rfl⟩
  | reset => cases h; exact .inr (.inr (.inr ⟨rfl, rfl⟩))
  | write off size v =>
    simp only [performOp, hostWrite] at h
    split at h
    · cases h; exact .inl ⟨nofun, _, rfl⟩
    · cases h; exact .inl ⟨nofun, _, rfl⟩
    · next hk =>
      obtain ⟨rfl, rfl⟩ := writeKind_command hk
      exact .inr (.inr (.inl ⟨v, rfl, h⟩))
    · next hk => cases h; exact .inr (.inl ⟨off, size, v, rfl, hk, rfl⟩)
    · cases h; exact .inl ⟨nofun, _, rfl⟩

/-- Everything a step can do: the oldest operation, on the state with it taken. -/
theorem step_cases {s t : State} (h : step s = .next t) :
    ∃ op rest, s.pending = op :: rest ∧ performOp op (s.takeOp rest) = .next t := by
  cases hp : s.pending with
  | nil => rw [step, nextOp_nil s hp] at h; cases h
  | cons op rest => rw [step, nextOp_cons s hp] at h; exact ⟨op, rest, rfl, h⟩

end Sys2Proof.Machine
end

