-- ==== Sys2Proof/Laws/Encoding.lean ====
section
/-! SUPPORT. The command word as a number: its fields by division, the encoder as a sum, and what the decoder's answer
says of the fields. -/

namespace Sys2Proof

/-- The encoded word as a number: the fields do not overlap (R42). -/
theorem encodeFields_toNat (op off len : Nat) (h1 : op < 16) (h2 : off < 8192) (h3 : len < 8192) :
    (encodeFields op off len).toNat = op * 2 ^ 28 + off * 2 ^ 13 + len := by
  have a1 : BitVec.ofNat 32 op <<< 28 = BitVec.ofNat 32 (op * 2 ^ 28) := by
    apply BitVec.eq_of_toNat_eq; simp [Nat.shiftLeft_eq]
  have a2 : BitVec.ofNat 32 off <<< 13 = BitVec.ofNat 32 (off * 2 ^ 13) := by
    apply BitVec.eq_of_toNat_eq; simp [Nat.shiftLeft_eq]
  have o1 : op * 2 ^ 28 ||| off * 2 ^ 13 = op * 2 ^ 28 + off * 2 ^ 13 := by
    rw [Nat.mul_comm op, Nat.two_pow_add_eq_or_of_lt (i := 28) (b := off * 2 ^ 13) (by omega) op]
  have o2 : (op * 2 ^ 28 + off * 2 ^ 13) ||| len = op * 2 ^ 28 + off * 2 ^ 13 + len := by
    rw [show op * 2 ^ 28 + off * 2 ^ 13 = 2 ^ 13 * (op * 2 ^ 15 + off) by omega,
      Nat.two_pow_add_eq_or_of_lt (i := 13) (b := len) (by omega) (op * 2 ^ 15 + off)]
  rw [encodeFields, a1, a2, BitVec.toNat_or, BitVec.toNat_or]
  simp only [BitVec.toNat_ofNat]
  rw [Nat.mod_eq_of_lt (by omega), Nat.mod_eq_of_lt (by omega), Nat.mod_eq_of_lt (by omega), o1, o2]

/-- OP, RSV, OFF and LEN of a word as parts of its number (R42). -/
theorem fields_toNat (w : Word) :
    fieldOp w = w.toNat / 2 ^ 28 ∧ fieldRsv w = w.toNat / 2 ^ 26 % 4 ∧ fieldOff w = w.toNat / 2 ^ 13 % 8192 ∧
      fieldLen w = w.toNat % 8192 := by
  have := w.isLt
  simp only [fieldOp, fieldRsv, fieldOff, fieldLen, bitField, Nat.shiftRight_eq_div_pow]
  refine ⟨?_, ?_, ?_, ?_⟩ <;> omega

/-- Each field of an encoded word is the operand put in. -/
theorem fields_encodeFields (op off len : Nat) (h1 : op < 16) (h2 : off < 8192) (h3 : len < 8192) :
    fieldOp (encodeFields op off len) = op ∧ fieldRsv (encodeFields op off len) = 0 ∧
      fieldOff (encodeFields op off len) = off ∧ fieldLen (encodeFields op off len) = len := by
  have := fields_toNat (encodeFields op off len)
  rw [encodeFields_toNat op off len h1 h2 h3] at this
  omega

/-- The opcode and the operands of a command, as its fields (R42, R44). -/
def commandFields : Instr → Nat × Nat × Nat
  | .init => (1, 0, 0)
  | .update off len => (2, off, len)
  | .peek => (3, 0, 0)
  | .exportState => (4, 0, 0)
  | .restore len => (5, 0, len)
  | .compare len => (6, 0, len)

/-- What the fields of a word are when it decodes to a command: exactly the command's, with RSV 0 (R46). -/
theorem fields_of_decodeWord {w : Word} {i : Instr} (h : decodeWord w = .command i) :
    fieldRsv w = 0 ∧ (fieldOp w, fieldOff w, fieldLen w) = commandFields i := by
  simp only [decodeWord, requireZero] at h
  split_ifs at h <;> cases h <;> simp [commandFields] <;> omega

/-- When a word is illegal, as a condition on its fields (R47). -/
theorem illegal_iff_fields (w : Word) : (∃ why, decodeWord w = .illegal why) ↔
    fieldOp w = 0 ∨ 7 ≤ fieldOp w ∨ fieldRsv w ≠ 0 ∨
      ((fieldOp w = 1 ∨ fieldOp w = 3 ∨ fieldOp w = 4) ∧ (fieldOff w ≠ 0 ∨ fieldLen w ≠ 0)) ∨
      ((fieldOp w = 5 ∨ fieldOp w = 6) ∧ fieldOff w ≠ 0) := by
  simp only [decodeWord, requireZero]
  split_ifs <;> simp <;> omega

/-- Masking a word with `2^32 - 2^n` keeps the bits from `n` on: the form of every row's mask (R44). -/
theorem and_highMask (w m : Word) (n : Nat) (hn : n ≤ 32) (hm : m.toNat = 2 ^ 32 - 2 ^ n) :
    (w &&& m).toNat = w.toNat / 2 ^ n * 2 ^ n := by
  have hp : 2 ^ 32 - 2 ^ n = (2 ^ (32 - n) - 1) * 2 ^ n := by
    rw [Nat.sub_mul, ← Nat.pow_add, show 32 - n + n = 32 by omega, Nat.one_mul]
  rw [BitVec.toNat_and, hm, hp]
  apply Nat.eq_of_testBit_eq
  intro i
  simp only [Nat.testBit_and, Nat.testBit_mul_two_pow, Nat.testBit_div_two_pow, Nat.testBit_two_pow_sub_one]
  by_cases h : n ≤ i
  · simp only [h, decide_true, Bool.true_and, show i - n + n = i by omega]
    by_cases hi : i - n < 32 - n
    · simp [hi]
    · have : w.toNat.testBit i = false :=
        Nat.testBit_lt_two_pow (lt_of_lt_of_le w.isLt (Nat.pow_le_pow_right (by omega) (by omega)))
      simp [this]
  · simp [h]

end Sys2Proof
end

