-- ==== Sys2Proof/Laws/PerInstr.lean ====
section
/-! SUPPORT. The statements made per instruction: the family `EncodeMatchesRow` says that a well-formed command's encoded
word is selected by its own row of the opcode map (R44), with RSV 0. -/

namespace Sys2Proof.Laws.EncodeMatchesRow

/-- The encoded word of the command has RSV 0 and is selected by a row of the opcode map with its mnemonic. -/
def Statement (i : Instr) : Prop :=
  i.wellFormed = true → fieldRsv (encode i) = 0 ∧
    ∃ r ∈ opcodeMap, r.mnemonic = i.mnemonic ∧ r.selects (encode i) = true

theorem init : Statement .init := fun _ =>
  ⟨rfl, ⟨"INIT", 0x10000000, 0xFFFFFFFF⟩, by simp [opcodeMap], rfl, rfl⟩

theorem peek : Statement .peek := fun _ =>
  ⟨rfl, ⟨"PEEK", 0x30000000, 0xFFFFFFFF⟩, by simp [opcodeMap], rfl, rfl⟩

theorem exportState : Statement .exportState := fun _ =>
  ⟨rfl, ⟨"EXPORT", 0x40000000, 0xFFFFFFFF⟩, by simp [opcodeMap], rfl, rfl⟩

/-- A row selects an encoded word when the high bits agree. -/
theorem selects_of (r : OpcodeRow) (w : Word) (n : Nat) (hn : n ≤ 32) (hm : r.mask.toNat = 2 ^ 32 - 2 ^ n)
    (h : w.toNat / 2 ^ n * 2 ^ n = r.matchBits.toNat) : r.selects w = true := by
  rw [OpcodeRow.selects, beq_iff_eq, ← BitVec.toNat_inj, and_highMask w r.mask n hn hm, h]

theorem update (off len : Nat) : Statement (.update off len) := fun h => by
  simp only [Instr.wellFormed, fitsField, Bool.and_eq_true, decide_eq_true_eq] at h
  refine ⟨(fields_encodeFields 2 off len (by omega) h.1 h.2).2.1, ⟨"UPDATE", 0x20000000, 0xFC000000⟩, by simp [opcodeMap],
    rfl, selects_of _ _ 26 (by omega) rfl ?_⟩
  rw [encode, encodeFields_toNat 2 off len (by omega) h.1 h.2]
  show _ = 0x20000000
  omega

theorem restore (len : Nat) : Statement (.restore len) := fun h => by
  simp only [Instr.wellFormed, fitsField, decide_eq_true_eq] at h
  refine ⟨(fields_encodeFields 5 0 len (by omega) (by omega) h).2.1, ⟨"RESTORE", 0x50000000, 0xFFFFE000⟩,
    by simp [opcodeMap], rfl, selects_of _ _ 13 (by omega) rfl ?_⟩
  rw [encode, encodeFields_toNat 5 0 len (by omega) (by omega) h]
  show _ = 0x50000000
  omega

theorem compare (len : Nat) : Statement (.compare len) := fun h => by
  simp only [Instr.wellFormed, fitsField, decide_eq_true_eq] at h
  refine ⟨(fields_encodeFields 6 0 len (by omega) (by omega) h).2.1, ⟨"COMPARE", 0x60000000, 0xFFFFE000⟩,
    by simp [opcodeMap], rfl, selects_of _ _ 13 (by omega) rfl ?_⟩
  rw [encode, encodeFields_toNat 6 0 len (by omega) (by omega) h]
  show _ = 0x60000000
  omega

end Sys2Proof.Laws.EncodeMatchesRow
end

