-- ==== Sys2Proof/Machine/Assembler.lean ====
section
/-! DEFINITION. The assembler statements (R50) and pseudo-instructions (R51) as the host operations they stand for. They
have no semantics of their own (92_eei_decisions D29). -/

namespace Sys2Proof.Machine

/-- One assembler statement (R50). -/
inductive AsmStatement where
  | cmd (i : Instr)
  /-- `.word w`: the raw word written to CMD. -/
  | word (w : Word)
  | wr8 (off : Nat) (v : Word)
  | wr16 (off : Nat) (v : Word)
  | wr32 (off : Nat) (v : Word)
  | rd8 (off : Nat)
  | rd16 (off : Nat)
  | rd32 (off : Nat)
deriving DecidableEq, Repr

/-- The host operation of a statement: "each assembles to one CMD write of the word shown", or is a window access. -/
def AsmStatement.hostOp : AsmStatement → HostOp
  | .cmd i => issueOp (encode i)
  | .word w => issueOp w
  | .wr8 off v => .write off 1 v
  | .wr16 off v => .write off 2 v
  | .wr32 off v => .write off 4 v
  | .rd8 off => .read off 1
  | .rd16 off => .read off 2
  | .rd32 off => .read off 4

/-- `WR8 a, b` for successive offsets `a` and bytes `b`. -/
def writeByteOps (a : Nat) : List Byte → List HostOp
  | [] => []
  | b :: bs => (AsmStatement.wr8 a (b.setWidth 32)).hostOp :: writeByteOps (a + 1) bs

/-- `RD8 a` for `n` successive offsets. -/
def readByteOps (a : Nat) : Nat → List HostOp
  | 0 => []
  | n + 1 => (AsmStatement.rd8 a).hostOp :: readByteOps (a + 1) n

/-- `WCHUNK off, bytes`. -/
def wchunk (off : Nat) (bytes : List Byte) : List HostOp := writeByteOps (Config.chunkBase + off) bytes

/-- `WXFER off, bytes`. -/
def wxfer (off : Nat) (bytes : List Byte) : List HostOp := writeByteOps (Config.xferBase + off) bytes

/-- The CMD write of a command. -/
def issue (i : Instr) : List HostOp := [(AsmStatement.cmd i).hostOp]

/-- `FEED off, bytes`, for off + len(bytes) ≤ 4096. -/
def feedAt (off : Nat) (bytes : List Byte) : List HostOp :=
  wchunk off bytes ++ issue (.update off bytes.length)

/-- `FEED bytes` in `k` pieces of at most 4096 bytes. -/
def feedPieces (bytes : List Byte) : Nat → List HostOp
  | 0 => []
  | k + 1 => feedAt 0 (bytes.take Config.chunkBytes) ++ feedPieces (bytes.drop Config.chunkBytes) k

/-- `FEED bytes`, any length: "When n = 0 the expansion is UPDATE 0, 0". -/
def feed (bytes : List Byte) : List HostOp :=
  if bytes.length = 0 then issue (.update 0 0)
  else feedPieces bytes ((bytes.length + Config.chunkBytes - 1) / Config.chunkBytes)

/-- `HASH bytes`. -/
def hash (bytes : List Byte) : List HostOp := issue .init ++ feed bytes ++ issue .peek

/-- `SAVESTATE`. -/
def saveState : List HostOp := issue .exportState ++ readByteOps Config.xferBase Config.blobBytes

/-- `LOADSTATE blob`. -/
def loadState (bytes : List Byte) : List HostOp := wxfer 0 bytes ++ issue (.restore bytes.length)

end Sys2Proof.Machine
end

