-- ==== Sys2Proof/Tests/Slice0.lean ====
section
/-! SUPPORT. The model's own tests. The expected values are the spec's: the encodings of 30_encoding, the worked examples
of the rules and the vectors of 95_test_vectors. Each `witness_<Name>` shows inputs that meet the hypotheses of
`Obligations.<Name>`, clause by clause. -/

namespace Sys2Proof.Tests

open Sys2Proof.Machine

/-! ## Helpers -/

/-- The property of the next state, false where there is none. -/
def nextHas (o : Host.Outcome State Fault Refusal) (p : State → Bool) : Bool :=
  match o with
  | .next t => p t
  | .fault _ => false
  | .refused _ => false

/-- "abc" and "hello" in ASCII. -/
def abc : List Byte := [0x61, 0x62, 0x63]
def hello : List Byte := [0x68, 0x65, 0x6c, 0x6c, 0x6f]

/-- A reset machine with bytes in CHUNK. -/
def chunked (m : List Byte) : State := State.reset.writeRam 0x1000 m
/-- A reset machine that has absorbed some bytes. -/
def fed (m : List Byte) : State := { State.reset with live := absorb DigestState.fresh m }
/-- A machine that has absorbed some bytes, with the blob of another state in XFER. -/
def blobbed (m x : List Byte) : State := (fed m).writeXfer (blob (fed x).live)
/-- A DigestState with another last buffer byte. -/
def staled (S : DigestState) : DigestState := { S with buffer := S.buffer.setIfInBounds 63 0xff }
/-- A reset machine with one host operation waiting. -/
def waiting (op : HostOp) : State := { State.reset with pending := [op] }

/-! ## Well-formedness: each check refuses an ill-formed term -/

theorem test_wf_update_off : (Instr.update 8192 0).wellFormed = false := by decide
theorem test_wf_update_len : (Instr.update 0 8192).wellFormed = false := by decide
theorem test_wf_restore : (Instr.restore 8192).wellFormed = false := by decide
theorem test_wf_compare : (Instr.compare 8192).wellFormed = false := by decide
theorem test_wf_accepts : (Instr.update 8191 8191).wellFormed = true ∧ Instr.peek.wellFormed = true := by decide

/-! ## Decoding: words written out field by field, OP_RSV_OFF_LEN (R42, R44, R50) -/

theorem test_decode_init : decodeWord 0b0001_00_0000000000000_0000000000000 = .command .init := by decide
theorem test_decode_update : decodeWord 0b0010_00_0000000001010_0000000100001 = .command (.update 10 33) := by decide
theorem test_decode_update_top : decodeWord 0b0010_00_1111111111111_1111111111111 = .command (.update 8191 8191) := by
  decide
theorem test_decode_peek : decodeWord 0b0011_00_0000000000000_0000000000000 = .command .peek := by decide
theorem test_decode_export : decodeWord 0b0100_00_0000000000000_0000000000000 = .command .exportState := by decide
theorem test_decode_restore : decodeWord 0b0101_00_0000000000000_0000001011100 = .command (.restore 92) := by decide
theorem test_decode_compare : decodeWord 0b0110_00_0000000000000_0000001011100 = .command (.compare 92) := by decide
theorem test_decode_bytes : decodeBytes [0x21, 0x40, 0x01, 0x20, 0xff] = .command (.update 10 33) [0xff] := by decide
theorem test_decode_bytes_short : decodeBytes [0x21, 0x40, 0x01] = .truncated := by decide

/-- The illegal words of 95_test_vectors §7 with the check that fails first (R85). -/
theorem test_decode_illegal :
    [0x00000000, 0x70000000, 0xf0000000, 0x7000005c].all (decodeWord · == .illegal .opcode) ∧
    [0x14000000, 0x2c000000, 0x24000000, 0x5400005b].all (decodeWord · == .illegal .reserved) ∧
    [0x10000001, 0x10002000, 0x30000001, 0x40002000, 0x50002000, 0x50002001].all
      (decodeWord · == .illegal .mustBeZero) := by decide

theorem test_encode : [Instr.update 4000 200, .update 4095 1, .restore 91, .compare 92].map encode
    = [0x21f400c8, 0x21ffe001, 0x5000005b, 0x6000005c] := by decide
theorem test_table_word : decodeTableWord 32 0x20014021 = some (.update 10 33) := by decide
theorem test_fetch_word : nextHas (step (State.reset.withFetchWord 32 0x30000001)) (·.err == 1) = true := by decide

/-! ## The compression engine (95_test_vectors §2) -/

theorem test_round_functions :
    roundFn 15 0xff00ff00 0xf0f0f0f0 0xcccccccc = 0xf0ccf0cc ∧ roundFn 16 0xff00ff00 0xf0f0f0f0 0xcccccccc = 0xfc30fc30 ∧
    roundFn 47 0xff00ff00 0xf0f0f0f0 0xcccccccc = 0xc33cc33c ∧ roundFn 48 0xff00ff00 0xf0f0f0f0 0xcccccccc = 0x0fc30fc3 := by
  decide
theorem test_rotl : rotl32 0x80000001 7 = 0x000000c0 ∧ rotl32 0x12345678 4 = 0x23456781 := by decide
theorem test_schedule : (schedule (blockOf [0x61, 0x62, 0x63, 0x80])).getD 0 0 = 0x80636261 := by decide +kernel
/-- Column k(i) of the step table (R59). -/
theorem test_message_index : (List.range 64).map messageIndex =
    List.range 16 ++ [1, 6, 11, 0, 5, 10, 15, 4, 9, 14, 3, 8, 13, 2, 7, 12] ++
    [5, 8, 11, 14, 1, 4, 7, 10, 13, 0, 3, 6, 9, 12, 15, 2] ++ [0, 7, 14, 5, 12, 3, 10, 1, 8, 15, 6, 13, 4, 11, 2, 9] := by
  decide
/-- Column s(i): the first row of each round, and the step after it. -/
theorem test_rotate_amount : [0, 1, 2, 3, 4, 16, 17, 18, 19, 32, 33, 34, 35, 48, 49, 50, 51, 63].map rotateAmount =
    [7, 12, 17, 22, 7, 5, 9, 14, 20, 4, 11, 16, 23, 6, 10, 15, 21, 21] := by decide
theorem test_additive : [0, 1, 15, 16, 32, 48, 63].map additive =
    [0xd76aa478, 0xe8c7b756, 0x49b40821, 0xf61e2562, 0xfffa3942, 0xf4292244, 0xeb86d391] := by decide
/-- Step 0 on the padded "abc" block (95_test_vectors §2.2). -/
theorem test_first_step : md5Step [0x80636261] 0 initialWords = ⟨0x10325476, 0xd6d117b4, 0xefcdab89, 0x98badcfe⟩ := by
  decide
theorem test_compress_zeros : md5Compress initialWords zeroBlock = ⟨0x031f1dac, 0x6ea58ed0, 0x1fab67b7, 0x74317791⟩ := by
  decide +kernel

/-! ## The commands, one step each -/

/-- R65's worked example. -/
theorem test_init : nextHas (exec .init { fed abc with dvalid := true, eq := true })
    (fun t => t.live == DigestState.fresh && t.status == 0x00000200) = true := by decide +kernel
/-- R66's worked example. -/
theorem test_update : nextHas (exec (.update 0 3) { chunked abc with dvalid := true })
    (fun t => t.status == 0x00030000 && t.live.words == initialWords && t.live.validPrefix == abc) = true := by
  decide +kernel
/-- Program P4, step 2: nothing absorbed. -/
theorem test_update_precondition : nextHas (exec (.update 4000 200) (fed abc))
    (fun t => t.status == 0x00030402 && t.live == (fed abc).live) = true := by decide +kernel
/-- R68's worked example. -/
theorem test_peek : nextHas (exec .peek (fed abc)) (fun t => t.status == 0x00030100 && t.live == (fed abc).live
    && t.digest.toList == [0x90, 0x01, 0x50, 0x98, 0x3c, 0xd2, 0x4f, 0xb0, 0xd6, 0x96, 0x3f, 0x7d, 0x28, 0xe1, 0x7f, 0x72]
    && t.hex.toList.take 8 == [0x39, 0x30, 0x30, 0x31, 0x35, 0x30, 0x39, 0x38]) = true := by decide +kernel
/-- The two-block padding branch (V3.9). -/
theorem test_peek_two_blocks : nextHas (exec .peek (fed (List.replicate 56 0))) (fun t => t.fin.count == 128
    && t.digest.toList.take 4 == [0xe3, 0xc4, 0xdd, 0x21]) = true := by decide +kernel
/-- R77's worked example: the header, words[0] and the count. -/
theorem test_export : nextHas (exec .exportState (fed (List.replicate 70 0x61))) (fun t =>
    t.ramBytes 0x0100 8 == [0x04, 0x40, 0x00, 0x00, 0x56, 0xff, 0xd4, 0x89] && t.ramBytes 0x0154 2 == [0x46, 0x00]) = true := by
  decide +kernel
/-- Program P3, step 4. -/
theorem test_restore : nextHas (exec (.restore 92) (blobbed [] (List.replicate 70 0x61)))
    (fun t => t.status == 0x00060000 && t.live.words.a == 0x89d4ff56 && t.live.count == 70) = true := by decide +kernel
/-- Program P4, step 8. -/
theorem test_restore_length : nextHas (exec (.restore 91) (blobbed abc hello))
    (fun t => t.status == 0x00030403 && t.live == (fed abc).live) = true := by decide +kernel
/-- Program P5, step 3. -/
theorem test_compare_equal : nextHas (exec (.compare 92) (blobbed hello hello)) (·.status == 0x00050200) = true := by
  decide +kernel
/-- 95_test_vectors §4.2: equal words, count and valid prefix, but stale bytes that differ. -/
theorem test_compare_stale : nextHas (exec (.compare 92) { blobbed abc abc with live := staled (fed abc).live })
    (fun t => !t.eq && t.err == 0) = true := by decide +kernel

/-! ## The window (95_test_vectors §8) -/

theorem test_narrow_cmd : nextHas (performOp (.write 0x0000 2 0x0003) State.reset)
    (fun t => t.response == .busError && t.status == 0) = true := by decide +kernel
theorem test_lanes : nextHas (performOp (.write 0x1000 4 0x64636261) State.reset)
    (fun t => t.ramBytes 0x1000 4 == [0x61, 0x62, 0x63, 0x64] && t.hostRead 0x1002 2 == .data 0x6463) = true := by
  decide +kernel
theorem test_read_status : (fed abc).hostRead 0x0006 1 = .data 0x03 := by decide +kernel
theorem test_reserved_reads_zero : State.reset.hostRead 0x0FFC 4 = .data 0 := by decide +kernel
theorem test_hardware_reset : nextHas (performOp .reset { fed abc with err := 3, faultSeen := true, pc := 7 })
    (fun t => t.status == 0 && t.live == DigestState.fresh && t.pc == 7) = true := by decide +kernel
/-- `FEED` of R51. -/
theorem test_feed : feed [0x61, 0x62] = [.write 0x1000 1 0x61, .write 0x1001 1 0x62, .write 0x0000 4 0x20000002] := by
  decide

/-! ## Witnesses: inputs that meet the hypotheses of each statement that has any -/

/-- "abc" absorbed into a fresh state (R12, R13). -/
theorem represents_abc : Represents (fed abc).live abc := by
  unfold Represents
  decide +kernel

/-- The header of a blob is correct; a first byte of 5 makes it wrong (program P5, steps 7 and 8). -/
theorem header_of_blob : ¬ malformedHeader (blobbed abc hello) := by
  unfold malformedHeader
  decide +kernel
theorem header_of_five : malformedHeader (State.reset.writeXfer [5, 0x40, 0, 0]) := by
  unfold malformedHeader
  decide +kernel

theorem witness_DecodeOfEncodeIsTheCommand : (Instr.update 8191 8191).wellFormed = true := by decide
theorem witness_EncodeOfDecodeIsTheWord : decodeWord 0x5000005c = .command (.restore 92) := by decide
theorem witness_OpcodeMapSelectsTheCommand : decodeWord 0x23ffffff = .command (.update 8191 8191) ∧
    (∃ why, decodeWord 0x7fffffff = .illegal why) ∧ opcodeMap.filter (·.selects 0x0fffffff) = [] :=
  ⟨by decide, ⟨.opcode, by decide⟩, by decide⟩
theorem witness_IllegalWordsRaiseIllegalCommand : (∃ why, decodeWord 0xf0000000 = .illegal why) ∧
    (∃ why, decodeWord 0x2c000000 = .illegal why) ∧ ∃ why, decodeWord 0x50002001 = .illegal why :=
  ⟨⟨.opcode, by decide⟩, ⟨.reserved, by decide⟩, ⟨.mustBeZero, by decide⟩⟩
theorem witness_StepRunsTheDecodedCommand : (waiting (.write 0x0000 4 0x30000000)).pending = .write 0x0000 4 0x30000000 :: [] ∧
    decodeWord 0x30000000 = .command .peek := by decide
theorem witness_StepFaultsOnAnIllegalWord : (waiting (.write 0x0000 4 0x30000001)).pending = .write 0x0000 4 0x30000001 :: [] ∧
    decodeWord 0x30000001 = .illegal .mustBeZero := by decide
theorem witness_EveryStepAdvancesTheSequenceByOne : ∃ t, step (waiting .reset) = .next t := ⟨_, rfl⟩
theorem witness_StepStopsOnlyAtTheEndOfTheRun : State.reset.pending = [] ∧ (waiting .reset).pending ≠ [] := by decide
/-- Misaligned inside and at the end of the window; sizes 0, 3 and 8. -/
theorem witness_BadAccessesGetABusErrorAndChangeNothing :
    ¬ aligned 1 2 ∧ ¬ aligned 0x0002 4 ∧ ¬ aligned 0x1fff 2 ∧ ¬ aligned 0 0 ∧ ¬ aligned 0 3 ∧ ¬ aligned 0x1ff8 8 := by
  unfold aligned
  decide
theorem witness_CmdTakesWordWritesOnly : aligned 3 1 ∧ aligned 2 2 ∧ aligned 0 4 := by
  unfold aligned
  decide
theorem witness_ReadOnlyOffsetsIgnoreWrites : aligned 0x0004 4 ∧ aligned 0x00ff 1 ∧ aligned 0x015c 4 ∧ aligned 0x0ffe 2 := by
  unfold aligned
  decide
/-- The edges of the two RAMs; 0x0008, 0x000f, 0x0040, 0x00ff, 0x015c and 0x0fff lie in the reserved ranges. -/
theorem witness_WindowMapContents : inRam 0x0100 ∧ inRam 0x015b ∧ inRam 0x1000 ∧ inRam 0x1fff ∧
    ¬ inRam 0x00ff ∧ ¬ inRam 0x015c ∧ ¬ inRam 0x0fff ∧ ¬ inRam 0x2000 := by
  unfold inRam
  decide
theorem witness_LittleEndianLanes : aligned 0x0000 4 ∧ aligned 0x1fff 1 ∧ (inRam 0x0158 ∧ aligned 0x0158 4) ∧
    inRam 0x1ffe ∧ aligned 0x1ffe 2 := by
  unfold aligned inRam
  decide
theorem witness_RamWritesStoreTheirBytesAlone : (inRam 0x0158 ∧ aligned 0x0158 4) ∧ (inRam 0x1000 ∧ aligned 0x1000 2) ∧
    inRam 0x1fff ∧ aligned 0x1fff 1 := by
  unfold aligned inRam
  decide
/-- A store, a refused narrow write to CMD, and a read. -/
theorem witness_OnlyCmdWritesTouchTheRegisters :
    (∃ t, performOp (.write 0x1000 4 7) State.reset = .next t) ∧ (∀ w, HostOp.write 0x1000 4 7 ≠ .write 0x0000 4 w) ∧
    (∃ t, performOp (.write 0x0000 2 7) State.reset = .next t) ∧ (∀ w, HostOp.write 0x0000 2 7 ≠ .write 0x0000 4 w) ∧
    ∃ t, performOp (.read 0x0010 4) State.reset = .next t :=
  ⟨⟨_, rfl⟩, fun _ h => (by cases h), ⟨_, rfl⟩, fun _ h => (by cases h), ⟨_, rfl⟩⟩
theorem witness_AccessesBeyondTheWindowDoNotReachTheEngine : 0x2000 ≤ 0x2000 ∧ ¬ 0x2000 ≤ 0x1fff := by decide
theorem witness_FaultsWriteErrAndFaultSeenAlone :
    commandFaults (.update 4096 1) State.reset .precondition ∧
    commandFaults (.restore 91) (blobbed abc hello) .malformedState ∧
    commandFaults (.compare 92) (State.reset.writeXfer [5, 0x40, 0, 0]) .malformedState ∧
    (∀ f, ¬ commandFaults (.update 4096 0) State.reset f) ∧ (∀ f, ¬ commandFaults (.restore 92) (blobbed abc hello) f) ∧
    decodeWord 0x24000000 = .illegal .reserved :=
  ⟨⟨rfl, by decide⟩, ⟨rfl, .inl (by decide)⟩, ⟨rfl, .inr header_of_five⟩, fun _ h => absurd h.2 (by decide),
    fun _ h => h.2.elim (fun h => h rfl) header_of_blob, by decide⟩
/-- A PEEK, an illegal word, and a COMPARE 91, which faults. -/
theorem witness_EqWrittenOnlyByACompletingCompare :
    (∃ t, issueCommand 0x30000000 State.reset = .next t) ∧ (∀ len, decodeWord 0x30000000 ≠ .command (.compare len)) ∧
    (∃ t, issueCommand 0x00000000 State.reset = .next t) ∧ (∀ len, decodeWord 0x00000000 ≠ .command (.compare len)) ∧
    (∃ t, issueCommand 0x6000005b State.reset = .next t) ∧
    ∀ len, decodeWord 0x6000005b = .command (.compare len) → ∃ f, commandFaults (.compare len) State.reset f := by
  have e1 : decodeWord 0x30000000 = .command .peek := by decide
  have e2 : decodeWord 0x00000000 = .illegal .opcode := by decide
  have e3 : decodeWord 0x6000005b = .command (.compare 91) := by decide
  refine ⟨⟨_, rfl⟩, fun _ h => ?_, ⟨_, rfl⟩, fun _ h => ?_, ⟨_, rfl⟩, fun len h => ?_⟩
  · cases e1.symm.trans h
  · cases e2.symm.trans h
  · cases e3.symm.trans h
    exact ⟨.malformedState, rfl, .inl (by decide)⟩
theorem witness_FaultSeenIsStickyUntilHardwareReset :
    decodeWord 0x00000000 = .illegal .opcode ∧ commandFaults (.update 8191 8191) State.reset .precondition ∧
    (∃ t, step { waiting (.write 0x0000 4 0x10000000) with faultSeen := true } = .next t) ∧
    { waiting (.write 0x0000 4 0x10000000) with faultSeen := true }.pending.head? ≠ some .reset :=
  ⟨by decide, ⟨rfl, by decide⟩, ⟨_, rfl⟩, by decide⟩
theorem witness_DvalidAfterEachCommand :
    (∃ t, exec (.update 4096 1) State.reset = .next t) ∧ (∃ f, commandFaults (.update 4096 1) State.reset f) ∧
    (∃ t, exec .peek State.reset = .next t) ∧ ∀ f, ¬ commandFaults .peek State.reset f :=
  ⟨⟨_, rfl⟩, ⟨_, rfl, by decide⟩, ⟨_, rfl⟩, fun _ h => h⟩
/-- An UPDATE at 0x1000 + 4095 meets the clauses on RAM, FIN and EQ; a PEEK the one on LIVE. -/
theorem witness_EachStateItemHasItsWriters :
    (∃ t, exec (.update 4095 1) State.reset = .next t) ∧ Instr.update 4095 1 ≠ .exportState ∧ Instr.update 4095 1 ≠ .peek ∧
    (∀ len, Instr.update 4095 1 ≠ .compare len) ∧ (∃ t, exec .peek State.reset = .next t) ∧ Instr.peek ≠ .init ∧
    (∀ off len, Instr.peek ≠ .update off len) ∧ ∀ len, Instr.peek ≠ .restore len :=
  ⟨⟨_, rfl⟩, by decide, by decide, fun _ h => (by cases h), ⟨_, rfl⟩, by decide, fun _ _ h => (by cases h),
    fun _ h => (by cases h)⟩
/-- A RAM with two listed bytes and a store to come. -/
theorem witness_StepKeepsTheRamCanonical :
    ramCanonical { waiting (.write 0x1ffc 4 1) with ram := [(0x0100, 4), (0x1fff, 9)] } ∧
    ∃ t, step { waiting (.write 0x1ffc 4 1) with ram := [(0x0100, 4), (0x1fff, 9)] } = .next t := by
  refine ⟨?_, _, rfl⟩
  unfold ramCanonical inRam
  decide
theorem witness_StepKeepsErrConsistent :
    errConsistent { waiting (.write 0x0000 4 0) with err := 3, faultSeen := true } ∧
    ∃ t, step { waiting (.write 0x0000 4 0) with err := 3, faultSeen := true } = .next t := by
  refine ⟨?_, _, rfl⟩
  unfold errConsistent
  decide
/-- "abc" absorbed and its digest published, with an UPDATE to come. -/
theorem witness_StepKeepsThePublishedDigestCurrent :
    publishedCurrent { waiting (.write 0x0000 4 0x20000003) with
      live := (fed abc).live, dvalid := true, digest := digestOf (fed abc).live
      hex := hexOfDigest (digestOf (fed abc).live) } ∧
    ∃ t, step { waiting (.write 0x0000 4 0x20000003) with
      live := (fed abc).live, dvalid := true, digest := digestOf (fed abc).live
      hex := hexOfDigest (digestOf (fed abc).live) } = .next t :=
  ⟨fun _ => ⟨rfl, rfl⟩, _, rfl⟩
theorem witness_ScheduleIsLittleEndian : 15 < 16 ∧ 3 < 4 := by decide
/-- The first and the last step of each round. -/
theorem witness_RoundFunctionsBitByBit : 31 < 32 ∧ 15 < 16 ∧ (16 ≤ 16 ∧ 31 < 32) ∧ (32 ≤ 32 ∧ 47 < 48) ∧ 48 ≤ 63 := by decide
theorem witness_RotatesArePureRotations : (1 ≤ 1 ∧ 1 ≤ 31) ∧ (1 ≤ 31 ∧ 31 ≤ 31) ∧ 63 < 64 := by decide
theorem witness_EachRoundReadsEveryWordOnce : 0 < 4 ∧ 3 < 4 := by decide
/-- Index 3: 60 bytes leave the buffer short of full, 61 fill it. -/
theorem witness_AbsorbByteByByte : (fed abc).live.count.toNat % 64 + 60 < 64 ∧ 64 ≤ (fed abc).live.count.toNat % 64 + 61 := by
  decide +kernel
theorem witness_InitReinitialisesLiveAlone : (0x10000001 : Word).extractLsb' 28 4 = 1 ∧ (0x10000001 : Word) ≠ 0x10000000 := by
  decide
theorem witness_UpdateAbsorbsExactlyItsSlice : 4095 + 1 ≤ 4096 ∧ 4096 + 0 ≤ 4096 ∧ 4096 < 4096 + 1 ∧ 4096 < 8191 + 8191 := by
  decide
theorem witness_InitAndUpdateKeepTheStreamInvariants : Represents (fed abc).live abc ∧ 0 + 4096 ≤ 4096 :=
  ⟨represents_abc, by decide⟩
theorem witness_PadLengthRanges : (55 < 64 ∧ 55 < 56) ∧ 63 < 64 ∧ 56 ≤ 63 := by decide
theorem witness_LengthFieldIsTheBitCount : 7 < 8 ∧ (3 : Count).toNat % 2 ^ 61 = (0x2000000000000003 : Count).toNat % 2 ^ 61 := by
  decide
theorem witness_PeekPublishesTheMd5OfTheInput : Represents (fed abc).live abc := represents_abc
theorem witness_FreshPeekGivesTheEmptyDigest : State.reset.live = DigestState.fresh := rfl
theorem witness_PeekIsIdempotentAndKeepsTheStream : ∃ t, exec .peek (fed abc) = .next t := ⟨_, rfl⟩
/-- Two states that differ in FIN, DVALID and ERR. -/
theorem witness_OutputRegistersNeverFeedBack :
    sameStream (waiting (issueOp 0x30000000)) { waiting (issueOp 0x30000000) with fin := (fed abc).live, dvalid := true, err := 2 } ∧
    ∃ t, step (waiting (issueOp 0x30000000)) = .next t :=
  ⟨⟨rfl, fun _ => rfl⟩, _, rfl⟩
/-- Another stale byte, and bit 61 of count. -/
theorem witness_StaleBytesNeverReachADigest :
    sameFuture (fed abc).live { staled (fed abc).live with count := 0x2000000000000003 } ∧
    (fed abc).live ≠ { staled (fed abc).live with count := 0x2000000000000003 } := by
  unfold sameFuture
  decide +kernel
theorem witness_CompressionCounts : 0 + 4096 ≤ 4096 ∧ 4096 < 0 + 4097 := by decide
theorem witness_RestoreInstallsWhatXferHolds : ¬ malformedHeader (blobbed abc hello) ∧
    malformedHeader (State.reset.writeXfer [5, 0x40, 0, 0]) ∧ 91 ≠ 92 := ⟨header_of_blob, header_of_five, by decide⟩
theorem witness_CompareTestsAllOfLive : ¬ malformedHeader (blobbed abc hello) ∧
    malformedHeader (State.reset.writeXfer [5, 0x40, 0, 0]) ∧ 93 ≠ 92 := ⟨header_of_blob, header_of_five, by decide⟩
/-- The other engine here holds "hello"; its XFER holds the bytes that EXPORT wrote. -/
theorem witness_ResumedStreamHashesLikeTheWhole : Represents (fed abc).live abc ∧ ∃ t, exec .exportState (fed abc) = .next t ∧
    ∀ k < 92, ({ t with live := (fed hello).live }).ramByte (0x0100 + k) = t.ramByte (0x0100 + k) :=
  ⟨represents_abc, _, rfl, fun _ _ => rfl⟩

end Sys2Proof.Tests
end

section
/-! The stream invariants of R13 along absorb, and the digest PEEK publishes of the input held. -/

namespace Sys2Proof.Machine

/-! ## Inputs in two pieces -/

/-- The number of complete blocks of a longer input: those of its head, and those of what the head left open. -/
theorem length_append_div_block (m x : List Byte) :
    (m ++ x).length / 64 = m.length / 64 + (openTail m ++ x).length / 64 := by
  simp only [openTail, List.length_append, List.length_drop]
  omega

/-- A longer input behind the complete blocks of its head: what the head left open, then the rest. -/
theorem drop_blocks_append (m x : List Byte) : (m ++ x).drop (64 * (m.length / 64)) = openTail m ++ x :=
  List.drop_append_of_le_length (Nat.mul_div_le _ _)

/-- The complete blocks of a longer input: those of its head, then those of what the head left open. -/
theorem completeBlocks_append (m x : List Byte) :
    completeBlocks (m ++ x) = completeBlocks m ++ completeBlocks (openTail m ++ x) := by
  rw [completeBlocks, length_append_div_block, windows_add, windows_append_left _ _ _ (Nat.mul_div_le _ _),
    drop_blocks_append, completeBlocks, completeBlocks]

/-- What a longer input leaves open: what is left of the head's open bytes followed by the rest. -/
theorem openTail_append (m x : List Byte) : openTail (m ++ x) = openTail (openTail m ++ x) := by
  rw [openTail, length_append_div_block, Nat.mul_add, ← List.drop_drop, drop_blocks_append, ← openTail]

/-! ## Absorb extends the input held -/

/-- Absorb compresses the complete blocks of the buffered bytes followed by the chunk (R63). -/
theorem absorbedBlocks_eq_completeBlocks (S : DigestState) (x : List Byte) :
    absorbedBlocks S x = completeBlocks (S.validPrefix ++ x) := by
  rw [absorbedBlocks_eq, completeBlocks, List.length_append, validPrefix_length]

/-- Absorb leaves in the buffer what those bytes have open (R63). -/
theorem absorb_validPrefix_eq_openTail (S : DigestState) (x : List Byte) :
    (absorb S x).validPrefix = openTail (S.validPrefix ++ x) := by
  rw [absorb_validPrefix, openTail, List.length_append, validPrefix_length]

/-- The count of a state that holds an input (R12). -/
theorem Represents.count_eq {S : DigestState} {m : List Byte} (h : Represents S m) :
    S.count = BitVec.ofNat 64 m.length := h.2.2

/-- Absorbing bytes into a state that holds an input extends that input by exactly those bytes (R13, R63). -/
theorem Represents.absorb_append {S : DigestState} {m : List Byte} (h : Represents S m) (x : List Byte) :
    Represents (absorb S x) (m ++ x) := by
  obtain ⟨hwords, hprefix, hcount⟩ := h
  refine ⟨?words, ?validPrefix, ?count⟩
  case words =>
    show (absorbedBlocks S x).foldl md5Compress S.words = _
    rw [absorbedBlocks_eq_completeBlocks, hprefix, hwords, foldBlocks, foldBlocks, completeBlocks_append m x,
      List.foldl_append]
  case validPrefix => rw [absorb_validPrefix_eq_openTail, hprefix, ← openTail_append]
  case count =>
    show S.count + BitVec.ofNat 64 x.length = _
    rw [hcount, List.length_append, BitVec.ofNat_add]

/-- The finalized snapshot of a state that holds an input holds the padded input (R68 to R71). -/
theorem Represents.finalize_padded {S : DigestState} {m : List Byte} (h : Represents S m) :
    Represents (finalize S) (padded m) := by
  rw [finalize, padded, ← h.index_eq, ← h.count_eq]
  exact (h.absorb_append _).absorb_append _

/-- The digest of a state that holds an input is the MD5 of that input (R2, R72). -/
theorem Represents.digestOf_eq_md5 {S : DigestState} {m : List Byte} (h : Represents S m) :
    (digestOf S).toList = md5 m := by
  obtain ⟨hwords, -, -⟩ := h.finalize_padded
  exact congrArg wordBytes hwords

/-- The bytes of a digest's HEX text (R73). -/
@[simp] theorem toList_hexOfDigest (d : Vector Byte 16) : (hexOfDigest d).toList = hexChars d.toList := rfl

/-- Settles O44: the digest PEEK publishes is that of LIVE, and LIVE's finalized snapshot holds the padded input. -/
theorem peekPublishesTheMd5OfTheInput : Obligations.PeekPublishesTheMd5OfTheInput := by
  intro s m h
  obtain ⟨t, hexec, rfl⟩ := exec_of_not_faults (i := .peek) (s := s) fun _ hf => hf
  refine ⟨_, hexec, h.digestOf_eq_md5, ?_⟩
  show (hexOfDigest (digestOf s.live)).toList = _
  rw [toList_hexOfDigest, h.digestOf_eq_md5]

end Sys2Proof.Machine
end

section
/-! What a command leaves when it completes, item by item of R8, and what DVALID and EQ are after a command. -/

namespace Sys2Proof.Machine

/-! ## The state a completing command leaves -/

/-- The state a command leaves when it completes: `completedBy` as a function, without the conditions. -/
def completedState (i : Instr) (s : State) : State :=
  match i with
  | .init => { s with live := DigestState.fresh, dvalid := false }.complete
  | .update off len => (s.absorbLive ((List.range len).map fun k => s.ramByte (0x1000 + off + k))).complete
  | .peek => { s with
      fin := finalize s.live
      digest := digestOf s.live
      hex := hexOfDigest (digestOf s.live)
      dvalid := true }.complete
  | .exportState => (s.writeRam 0x0100 (blob s.live)).complete
  | .restore _ => { s with live := unblob s.readXfer, dvalid := false }.complete
  | .compare _ => { s with eq := sameDigestState (unblob s.readXfer) s.live }.complete

/-- A completing command leaves its `completedState`. -/
theorem completedBy.eq_completedState {i : Instr} {s t : State} (h : completedBy i s t) : t = completedState i s :=
  match i, h with
  | .init, h => h
  | .update _ _, ⟨_, h⟩ => h
  | .peek, h => h
  | .exportState, h => h
  | .restore _, ⟨_, _, h⟩ => h
  | .compare _, ⟨_, _, h⟩ => h

/-- Everything a command can do, as an equation for its next state: the fault effect, or its `completedState`. -/
theorem exec_next_cases {i : Instr} {s t : State} (h : exec i s = .next t) :
    (∃ f, commandFaults i s f ∧ t = s.raiseFault f) ∨ ((∀ f, ¬ commandFaults i s f) ∧ t = completedState i s) :=
  (exec_cases h).imp_right fun ⟨hnf, hc⟩ => ⟨hnf, hc.eq_completedState⟩

/-- A command that does not fault steps to its `completedState`. -/
theorem exec_eq_completedState {i : Instr} {s : State} (h : ∀ f, ¬ commandFaults i s f) :
    exec i s = .next (completedState i s) := by
  obtain ⟨t, hexec, hc⟩ := exec_of_not_faults h
  rw [hexec, hc.eq_completedState]

section completedState
variable (i : Instr) (s : State)

@[simp] theorem completedState_pending : (completedState i s).pending = s.pending := by cases i <;> rfl
@[simp] theorem completedState_pc : (completedState i s).pc = s.pc := by cases i <;> rfl
@[simp] theorem completedState_response : (completedState i s).response = s.response := by cases i <;> rfl
@[simp] theorem completedState_ramDraw : (completedState i s).ramDraw = s.ramDraw := by cases i <;> rfl
@[simp] theorem completedState_faultSeen : (completedState i s).faultSeen = s.faultSeen := by cases i <;> rfl

variable {i s}

/-- Only EXPORT writes a RAM (R16, R17). -/
theorem completedState_ram (h : i ≠ .exportState) : (completedState i s).ram = s.ram := by
  cases i with
  | exportState => exact absurd rfl h
  | _ => rfl

/-- Every RAM byte reads as before after any command but EXPORT (R16, R17). -/
theorem completedState_ramByte (h : i ≠ .exportState) (a : Nat) : (completedState i s).ramByte a = s.ramByte a := by
  simp only [State.ramByte, completedState_ram h, completedState_ramDraw]

/-- A RAM byte after EXPORT: that of the blob of LIVE inside XFER, its old value elsewhere (R77). -/
theorem completedState_exportState_ramByte (s : State) (a : Nat) : (completedState .exportState s).ramByte a =
    if 0x0100 ≤ a ∧ a < 0x015C then (blob s.live).getD (a - 0x0100) 0 else s.ramByte a := by
  rw [completedState, complete_ramByte]
  exact ramByte_writeXfer_blob s s.live a

/-- No command writes a RAM byte outside XFER (R16). -/
theorem completedState_ramByte_outside_xfer {a : Nat} (h : ¬ (0x0100 ≤ a ∧ a < 0x015C)) :
    (completedState i s).ramByte a = s.ramByte a := by
  by_cases hi : i = .exportState
  · rw [hi, completedState_exportState_ramByte, if_neg h]
  · exact completedState_ramByte hi a

/-- Only PEEK writes FIN, DIGEST and HEX (R14, R18). -/
theorem completedState_outputs (h : i ≠ .peek) : (completedState i s).fin = s.fin ∧
    (completedState i s).digest = s.digest ∧ (completedState i s).hex = s.hex := by
  cases i with
  | peek => exact absurd rfl h
  | _ => exact ⟨rfl, rfl, rfl⟩

/-- Only INIT, UPDATE and RESTORE write LIVE (R10). -/
theorem completedState_live (hinit : i ≠ .init) (hupdate : ∀ off len, i ≠ .update off len)
    (hrestore : ∀ len, i ≠ .restore len) : (completedState i s).live = s.live := by
  cases i with
  | init => exact absurd rfl hinit
  | update off len => exact absurd rfl (hupdate off len)
  | restore len => exact absurd rfl (hrestore len)
  | _ => rfl

/-- Only COMPARE writes EQ (R24). -/
theorem completedState_eq (h : ∀ len, i ≠ .compare len) : (completedState i s).eq = s.eq := by
  cases i with
  | compare len => exact absurd rfl (h len)
  | _ => rfl

end completedState

/-- DVALID after an UPDATE that completes (R23, R66). -/
theorem completedState_update_dvalid (off len : Nat) (s : State) :
    (completedState (.update off len) s).dvalid = if len = 0 then s.dvalid else false := by
  by_cases h : len = 0 <;> simp [completedState, dvalidAfterUpdate, h, Nat.pos_iff_ne_zero]

/-! ## The statements about one command -/

/-- Settles O22: a fault leaves DVALID, and each completing command leaves it as its `completedState` says. -/
theorem dvalidAfterEachCommand : Obligations.DvalidAfterEachCommand := by
  intro i s t h
  rcases exec_next_cases h with ⟨f, hf, rfl⟩ | ⟨hnf, rfl⟩
  · exact ⟨fun _ => rfl, fun hnf => absurd hf (hnf f)⟩
  · refine ⟨fun ⟨f, hf⟩ => absurd hf (hnf f), fun _ => ?_⟩
    cases i with
    | update off len => exact completedState_update_dvalid off len s
    | _ => rfl

/-- Settles O23: a fault writes ERR and FAULTSEEN alone, and a completing command writes its own items alone. -/
theorem eachStateItemHasItsWriters : Obligations.EachStateItemHasItsWriters := by
  intro i s t h
  rcases exec_next_cases h with ⟨f, -, rfl⟩ | ⟨-, rfl⟩
  · exact ⟨fun _ _ => rfl, fun _ _ => rfl, fun _ => ⟨rfl, rfl, rfl⟩, fun _ _ _ => rfl, fun _ => rfl, rfl, rfl, rfl, rfl⟩
  · exact ⟨fun _ => completedState_ramByte_outside_xfer, completedState_ramByte, completedState_outputs,
      completedState_live, completedState_eq, completedState_pending i s, completedState_pc i s,
      completedState_response i s, completedState_ramDraw i s⟩

/-- Settles O20: an illegal word and a fault leave EQ, and of the completing commands COMPARE alone writes it. -/
theorem eqWrittenOnlyByACompletingCompare : Obligations.EqWrittenOnlyByACompletingCompare := by
  intro w s t h hcompare
  rcases issueCommand_cases h with ⟨i, hdecode, hexec⟩ | ⟨_, _, rfl⟩
  · rcases exec_next_cases hexec with ⟨f, _, rfl⟩ | ⟨hnf, rfl⟩
    · rfl
    · refine completedState_eq fun len hi => ?_
      obtain ⟨f, hf⟩ := hcompare len (hi ▸ hdecode)
      exact hnf f (hi ▸ hf)
  · rfl

end Sys2Proof.Machine
end

section
/-! What every host operation keeps: the cases of an operation, said once, and the invariants that follow. -/

namespace Sys2Proof.Machine

/-- A property that each state update of a host operation keeps is kept by the operation. The case of the reset is asked
for only where the operation is the reset. -/
theorem performOp_preserves {P : State → Prop} {op : HostOp} {s t : State} (h : performOp op s = .next t)
    (hrespond : ∀ u r, P u → P (u.respond r))
    (hstore : ∀ u off size v, writeKind off size = .store → P u → P (u.writeRam off (writtenBytes size v)))
    (hfault : ∀ u f, P u → P (u.raiseFault f))
    (hcompleted : ∀ i u, P u → P (completedState i u))
    (hreset : op = .reset → ∀ u, P u → P u.hardwareReset) (hs : P s) : P t := by
  rcases performOp_cases h with ⟨_, r, rfl⟩ | ⟨off, size, v, _, hkind, rfl⟩ | ⟨w, _, hissue⟩ | ⟨hop, rfl⟩
  · exact hrespond s r hs
  · exact hrespond _ _ (hstore s off size v hkind hs)
  · rcases issueCommand_cases hissue with ⟨i, _, hexec⟩ | ⟨_, _, rfl⟩
    · rcases exec_next_cases hexec with ⟨f, _, rfl⟩ | ⟨_, rfl⟩
      · exact hfault _ f (hrespond s _ hs)
      · exact hcompleted i _ (hrespond s _ hs)
    · exact hfault _ _ (hrespond s _ hs)
  · exact hreset hop s hs

/-! ## The sequence and the pc -/

/-- No host operation touches the sequence or the pc: taking the operation alone moved them (R19). -/
theorem performOp_pending_pc {op : HostOp} {s t : State} (h : performOp op s = .next t) :
    t.pending = s.pending ∧ t.pc = s.pc :=
  performOp_preserves (P := fun u => u.pending = s.pending ∧ u.pc = s.pc) h
    (hrespond := fun _ _ hu => hu) (hstore := fun _ _ _ _ _ hu => hu) (hfault := fun _ _ hu => hu)
    (hcompleted := fun i u hu => by rwa [completedState_pending, completedState_pc])
    (hreset := fun _ _ hu => hu) ⟨rfl, rfl⟩

/-- Settles O8: the step takes the operation, and the operation itself leaves the sequence and the pc. -/
theorem everyStepAdvancesTheSequenceByOne : Obligations.EveryStepAdvancesTheSequenceByOne := by
  intro s t h
  obtain ⟨op, rest, hpending, hop⟩ := step_cases h
  obtain ⟨hrest, hpc⟩ := performOp_pending_pc hop
  exact ⟨hpc, op, by rw [hpending, hrest, takeOp_pending]⟩

/-! ## FAULTSEEN -/

/-- No host operation but hardware reset clears FAULTSEEN (R25). -/
theorem performOp_keeps_faultSeen {op : HostOp} {s t : State} (h : performOp op s = .next t) (hop : op ≠ .reset)
    (hs : s.faultSeen = true) : t.faultSeen = true :=
  performOp_preserves (P := fun u => u.faultSeen = true) h
    (hrespond := fun _ _ hu => hu) (hstore := fun _ _ _ _ _ hu => hu) (hfault := fun _ _ _ => rfl)
    (hcompleted := fun i u hu => by rwa [completedState_faultSeen])
    (hreset := fun hisReset => absurd hisReset hop) hs

/-- An illegal word has the fault effect (R47). -/
theorem issueCommand_of_illegal {w : Word} {why : IllegalCause} (h : decodeWord w = .illegal why) (s : State) :
    issueCommand w s = .next (s.raiseFault .illegalCommand) := by
  simp only [issueCommand, h]

/-- Settles O21: the fault effect sets FAULTSEEN, and of all operations hardware reset alone clears it. -/
theorem faultSeenIsStickyUntilHardwareReset : Obligations.FaultSeenIsStickyUntilHardwareReset := by
  refine ⟨fun w s why hillegal => ⟨_, issueCommand_of_illegal hillegal s, rfl⟩,
    fun i s f hf => ⟨_, exec_of_faults hf, rfl⟩, fun s t h hs hhead => ?_, fun s => ⟨_, rfl, rfl⟩⟩
  obtain ⟨op, rest, hpending, hop⟩ := step_cases h
  refine performOp_keeps_faultSeen hop (fun hreset => hhead ?_) hs
  rw [hpending, List.head?_cons, hreset]

/-! ## The published digest -/

/-- Absorbing keeps DIGEST and HEX current: no bytes leave LIVE as it was, any byte clears DVALID (R23, R66). -/
theorem publishedCurrent_absorbLive {s : State} (hs : publishedCurrent s) (m : List Byte) :
    publishedCurrent (s.absorbLive m) := by
  cases m with
  | nil => exact fun hd => by rw [absorbLive_live, absorb_nil]; exact hs hd
  | cons x xs => exact fun hd => absurd hd (by simp [dvalidAfterUpdate])

/-- A completing command keeps DIGEST and HEX current: it leaves LIVE and what is published alone, or clears DVALID, or
publishes anew (R23). -/
theorem publishedCurrent_completedState (i : Instr) {s : State} (hs : publishedCurrent s) :
    publishedCurrent (completedState i s) := by
  cases i with
  | init => exact nofun
  | update off len => exact publishedCurrent_absorbLive hs _
  | peek => exact fun _ => ⟨rfl, rfl⟩
  | exportState => exact hs
  | restore len => exact nofun
  | compare len => exact hs

/-- Settles O26, by the cases of a host operation: only a completing command or a reset touches what the invariant reads. -/
theorem stepKeepsThePublishedDigestCurrent : Obligations.StepKeepsThePublishedDigestCurrent := by
  intro s t hs h
  obtain ⟨op, rest, _, hop⟩ := step_cases h
  exact performOp_preserves (P := publishedCurrent) hop
    (hrespond := fun _ _ hu => hu) (hstore := fun _ _ _ _ _ hu => hu) (hfault := fun _ _ hu => hu)
    (hcompleted := fun i _ hu => publishedCurrent_completedState i hu)
    (hreset := fun _ _ _ => nofun) hs

end Sys2Proof.Machine
end

section
/-! The registers of the window: CMD, STATUS, and the operations that touch no register. -/

namespace Sys2Proof.Machine

/-! ## CMD -/

/-- A word of bytes that are all 0 is 0. -/
theorem le32_eq_zero {B : List Byte} (h : ∀ k, B.getD k 0 = 0) : le32 B 0 = 0 :=
  word_ext fun k hk => by rw [byte_le32 _ _ _ hk, h]; simp

/-- Every byte of CMD reads 0 (R20). -/
theorem windowByte_cmd (s : State) {o : Nat} (h : o < 4) : s.windowByte o = 0 := by
  simp only [State.windowByte, (regionOf_cmd o).2 h]

/-- A read inside the window answers its bytes (R32, R33). -/
theorem hostRead_of_aligned (s : State) {off size : Nat} (hw : off < 0x2000) (ha : aligned off size) :
    s.hostRead off size = .data (le32 (s.windowBytes off size) 0) := by
  have : ¬ Config.windowBytes ≤ off := not_le.2 hw
  simp only [State.hostRead, this, if_false, (legalAccess_iff off size).2 ha, if_true]

/-- An aligned read of CMD answers 0 (R20). -/
theorem hostRead_cmd (s : State) {off size : Nat} (hoff : off < 4) (ha : aligned off size) :
    s.hostRead off size = .data 0 := by
  rw [hostRead_of_aligned s (by omega) ha, le32_eq_zero fun k => ?_]
  by_cases hk : k < size
  · have : off + k < 4 := by
      obtain ⟨rfl | rfl | rfl, hmod⟩ := ha <;> omega
    rw [getD_windowBytes _ _ _ _ hk, windowByte_cmd s this]
  · exact List.getD_eq_default _ _ (by rw [windowBytes_length]; omega)

/-- An aligned write to CMD issues a command if it is a whole word, and is a bus error otherwise (R35). -/
theorem writeKind_of_cmd {off size : Nat} (hoff : off < 4) (ha : aligned off size) :
    writeKind off size = if size = 4 then .command else .busError := by
  have : ¬ Config.windowBytes ≤ off := not_le.2 (show off < 0x2000 by omega)
  simp only [writeKind, this, if_false, (legalAccess_iff off size).2 ha, if_true, (regionOf_cmd off).2 hoff]

/-- Settles O11, by the two access rules of CMD. -/
theorem cmdTakesWordWritesOnly : Obligations.CmdTakesWordWritesOnly := by
  intro s off size v hoff ha
  refine ⟨?read, fun hsize => ?narrow, fun hsize => ?word⟩
  case read => rw [performOp, hostRead_cmd s hoff ha]; rfl
  case narrow => simp only [performOp, hostWrite, writeKind_of_cmd hoff ha, if_neg (Nat.ne_of_lt hsize)]; rfl
  case word => simp only [performOp, hostWrite, writeKind_of_cmd hoff ha, if_pos hsize]; rfl

/-! ## Operations that touch no register -/

/-- Settles O16: an operation that is no reset and issues no word answers or stores, and a read answers alone. -/
theorem onlyCmdWritesTouchTheRegisters : Obligations.OnlyCmdWritesTouchTheRegisters := by
  refine fun s => ⟨fun op t h hreset hcmd => ?_, fun off size t h => ?_⟩
  · rcases performOp_cases h with ⟨_, r, rfl⟩ | ⟨off, size, v, _, _, rfl⟩ | ⟨w, hop, _⟩ | ⟨hop, _⟩
    · rfl
    · rfl
    · exact absurd hop (hcmd w)
    · exact absurd hop hreset
  · cases h
    refine ⟨rfl, ?_⟩
    rw [performOp, respond_hostRead]
    rfl

/-! ## STATUS -/

/-- Bit `n` of a flag at its place. -/
theorem getLsbD_flagBit (b : Bool) {pos : Nat} (hpos : pos < 32) (n : Nat) :
    (flagBit b pos).getLsbD n = (decide (n = pos) && b) := by
  simp only [flagBit, BitVec.getLsbD_shiftLeft, BitVec.getLsbD_setWidth, BitVec.getLsbD_ofBool]
  by_cases h : n = pos
  · simp [h, hpos]
  · by_cases hlt : n < pos
    · simp [h, hlt]
    · simp [h, show n - pos ≠ 0 by omega]

/-- An index is below 64: it has no bit from bit 6 on. -/
theorem testBit_index_of_ge (S : DigestState) {k : Nat} (h : 6 ≤ k) : S.index.testBit k = false :=
  Nat.testBit_lt_two_pow (lt_of_lt_of_le (index_lt S) (Nat.pow_le_pow_right (n := 2) Nat.zero_lt_two h))

/-- Bit `n` of an index from bit 16 on: the BUFCNT field. -/
theorem getLsbD_bufcnt (S : DigestState) (n : Nat) :
    (BitVec.ofNat 32 S.index <<< 16).getLsbD n = (decide (16 ≤ n) && S.index.testBit (n - 16)) := by
  simp only [BitVec.getLsbD_shiftLeft, BitVec.getLsbD_ofNat]
  by_cases h : n < 22
  · rw [decide_eq_true (show n < 32 by omega), decide_eq_true (show n - 16 < 32 by omega), Bool.true_and, Bool.true_and,
      ← decide_not, decide_eq_decide.2 not_lt]
  · simp only [testBit_index_of_ge S (show 6 ≤ n - 16 by omega), Bool.and_false]

/-- STATUS bit by bit: each field at its place (R21). -/
theorem getLsbD_status (s : State) (n : Nat) : s.status.getLsbD n =
    (s.err.getLsbD n || (decide (n = 8) && s.dvalid) || (decide (n = 9) && s.eq) || (decide (n = 10) && s.faultSeen)
      || (decide (16 ≤ n) && s.live.index.testBit (n - 16))) := by
  have herr : (s.err.setWidth 32).getLsbD n = s.err.getLsbD n := by
    by_cases h : n < 32
    · simp [h]
    · rw [BitVec.getLsbD_of_ge _ _ (by omega), BitVec.getLsbD_of_ge _ _ (by omega)]
  simp only [State.status, BitVec.getLsbD_or, herr, getLsbD_flagBit _ (show 8 < 32 by decide),
    getLsbD_flagBit _ (show 9 < 32 by decide), getLsbD_flagBit _ (show 10 < 32 by decide), getLsbD_bufcnt]

/-- The bits of STATUS that no field holds read 0 (R21). -/
theorem status_reserved (s : State) {lo len : Nat}
    (h : (4 ≤ lo ∧ lo + len ≤ 8) ∨ (11 ≤ lo ∧ lo + len ≤ 16) ∨ 22 ≤ lo) : s.status.extractLsb' lo len = 0 := by
  apply BitVec.eq_of_getLsbD_eq
  intro j hj
  have hbufcnt : (decide (16 ≤ lo + j) && s.live.index.testBit (lo + j - 16)) = false := by
    by_cases hlo : 22 ≤ lo
    · rw [testBit_index_of_ge _ (by omega), Bool.and_false]
    · rw [decide_eq_false (by omega), Bool.false_and]
  rw [BitVec.getLsbD_extractLsb', getLsbD_status, BitVec.getLsbD_of_ge s.err _ (by omega), hbufcnt]
  simp [show lo + j ≠ 8 by omega, show lo + j ≠ 9 by omega, show lo + j ≠ 10 by omega]

/-- ERR is bits 3:0 (R21). -/
theorem status_err (s : State) : s.status.extractLsb' 0 4 = s.err := by
  apply BitVec.eq_of_getLsbD_eq
  intro j hj
  rw [BitVec.getLsbD_extractLsb', getLsbD_status, Nat.zero_add]
  simp [hj, show j ≠ 8 by omega, show j ≠ 9 by omega, show j ≠ 10 by omega, show ¬ 16 ≤ j by omega]

/-- DVALID, EQ and FAULTSEEN are bits 8, 9 and 10 (R21). -/
theorem status_flags (s : State) : s.status.getLsbD 8 = s.dvalid ∧ s.status.getLsbD 9 = s.eq ∧
    s.status.getLsbD 10 = s.faultSeen := by
  have herr : ∀ n, 4 ≤ n → s.err.getLsbD n = false := fun n => BitVec.getLsbD_of_ge s.err n
  simp only [getLsbD_status, herr 8 (by decide), herr 9 (by decide), herr 10 (by decide)]
  simp

/-- BUFCNT reads LIVE's index (R21). -/
theorem status_bufcnt (s : State) : (s.status.extractLsb' 16 6).toNat = s.live.index := by
  have hfield : s.status.extractLsb' 16 6 = BitVec.ofNat 6 s.live.index := by
    apply BitVec.eq_of_getLsbD_eq
    intro j hj
    rw [BitVec.getLsbD_extractLsb', getLsbD_status, BitVec.getLsbD_of_ge s.err _ (by omega), BitVec.getLsbD_ofNat]
    simp [show 16 + j ≠ 8 by omega, show 16 + j ≠ 9 by omega, show 16 + j ≠ 10 by omega]
  rw [hfield, BitVec.toNat_ofNat, Nat.mod_eq_of_lt (index_lt _)]

/-- The 4-byte read of STATUS answers the STATUS word (R21, R33). -/
theorem hostRead_status (s : State) : s.hostRead 0x0004 4 = .data s.status := by
  have hbytes : s.windowBytes 0x0004 4 = bytesLe32 s.status := rfl
  rw [hostRead_of_aligned s (by decide) ⟨.inr (.inr rfl), rfl⟩, hbytes, le32_bytesLe32]

/-- Settles O18: the read answers the STATUS word, whose fields are those of R21. -/
theorem statusReadsAsLaidOut : Obligations.StatusReadsAsLaidOut := by
  refine ⟨fun s => ⟨s.status, ?_, status_err s, status_reserved s (by omega), ?_⟩, fun s v => rfl, rfl⟩
  · rw [performOp, hostRead_status]
    rfl
  · obtain ⟨hdvalid, heq, hfaultSeen⟩ := status_flags s
    exact ⟨hdvalid, heq, hfaultSeen, status_reserved s (by omega), status_bufcnt s, status_reserved s (by omega)⟩

end Sys2Proof.Machine
end

section
/-! What LIVE carries along the stream, and what of it can reach a digest. -/

namespace Sys2Proof.Machine

/-- Settles O39: INIT leaves the fresh state, and an UPDATE within bounds absorbs its slice. -/
theorem initAndUpdateKeepTheStreamInvariants : Obligations.InitAndUpdateKeepTheStreamInvariants := by
  refine ⟨fun s => ⟨_, rfl, represents_fresh⟩, fun s m off len hm hbound => ?_⟩
  have hnf : ∀ f, ¬ commandFaults (.update off len) s f := fun f ⟨_, hover⟩ => absurd hover (not_lt.2 hbound)
  exact ⟨_, exec_eq_completedState hnf, hm.absorb_append _⟩

/-! ## Stale bytes and the top bits of count -/

/-- The index of a state is determined by bits 60:0 of its count. -/
theorem index_eq_of_sameFuture {S T : DigestState} (h : sameFuture S T) : S.index = T.index := by
  obtain ⟨_, _, hcount⟩ := h
  simp only [DigestState.index]
  omega

/-- Bits 63:61 of a count never reach the length field: they leave it by the factor 8 (R69). -/
theorem lengthField_congr {c d : Count} (h : c.toNat % 2 ^ 61 = d.toNat % 2 ^ 61) : lengthField c = lengthField d := by
  have : c * 8 = d * 8 := by
    apply BitVec.eq_of_toNat_eq
    rw [BitVec.toNat_mul, BitVec.toNat_mul, show (8 : Count).toNat = 8 from rfl]
    omega
  rw [lengthField, lengthField, this]

/-- Absorbing the same bytes keeps two states with the same future digests such (R27, R81). -/
theorem sameFuture_absorb {S T : DigestState} (h : sameFuture S T) (m : List Byte) :
    sameFuture (absorb S m) (absorb T m) := by
  obtain ⟨hwords, hprefix, hcount⟩ := h
  refine ⟨?words, ?validPrefix, ?count⟩
  case words =>
    show (absorbedBlocks S m).foldl md5Compress S.words = (absorbedBlocks T m).foldl md5Compress T.words
    rw [absorbedBlocks_eq_completeBlocks, absorbedBlocks_eq_completeBlocks, hprefix, hwords]
  case validPrefix => rw [absorb_validPrefix_eq_openTail, absorb_validPrefix_eq_openTail, hprefix]
  case count =>
    rw [absorb_count_toNat, absorb_count_toNat]
    omega

/-- Their finalized snapshots agree in the same way: padding and length field are the same. -/
theorem sameFuture_finalize {S T : DigestState} (h : sameFuture S T) : sameFuture (finalize S) (finalize T) := by
  have ⟨_, _, hcount⟩ := h
  rw [finalize, finalize, index_eq_of_sameFuture h, lengthField_congr hcount]
  exact sameFuture_absorb (sameFuture_absorb h _) _

/-- Settles O48: the digest reads the words of the finalized snapshot alone. -/
theorem staleBytesNeverReachADigest : Obligations.StaleBytesNeverReachADigest := by
  intro S T h
  obtain ⟨hwords, _, _⟩ := sameFuture_finalize h
  exact ⟨congrArg digestOfWords hwords, sameFuture_absorb h⟩

end Sys2Proof.Machine
end

section
/-! Two states that carry the same stream: no operation lets FIN, DIGEST, HEX or a STATUS flag reach LIVE or the RAMs. -/

namespace Sys2Proof.Machine

/-- The relation every operation keeps: the two states carry the same stream, under the same draw and sequence. -/
structure StreamAgrees (s t : State) : Prop where
  live : t.live = s.live
  ramByte : sameRam s t
  ramDraw : t.ramDraw = s.ramDraw
  pending : t.pending = s.pending

namespace StreamAgrees

variable {s t : State}

/-- The answers may differ: the relation does not read them. -/
theorem respond (h : StreamAgrees s t) (r r' : Response) : StreamAgrees (s.respond r) (t.respond r') :=
  ⟨h.live, h.ramByte, h.ramDraw, h.pending⟩

theorem raiseFault (h : StreamAgrees s t) (f : EngineFault) : StreamAgrees (s.raiseFault f) (t.raiseFault f) :=
  ⟨h.live, h.ramByte, h.ramDraw, h.pending⟩

theorem takeOp (h : StreamAgrees s t) (rest : List HostOp) : StreamAgrees (s.takeOp rest) (t.takeOp rest) :=
  ⟨h.live, h.ramByte, h.ramDraw, rfl⟩

/-- The same bytes stored at the same place. -/
theorem writeRam (h : StreamAgrees s t) (a : Nat) (v : List Byte) : StreamAgrees (s.writeRam a v) (t.writeRam a v) :=
  ⟨h.live, fun b => by rw [ramByte_writeRam, ramByte_writeRam, h.ramByte b], h.ramDraw, h.pending⟩

/-- After a reset every RAM byte is the free value of the next draw (R96). -/
theorem hardwareReset (h : StreamAgrees s t) : StreamAgrees s.hardwareReset t.hardwareReset where
  live := rfl
  ramByte a := by simp only [State.ramByte, hardwareReset_ram, hardwareReset_ramDraw, h.ramDraw]
  ramDraw := by rw [hardwareReset_ramDraw, hardwareReset_ramDraw, h.ramDraw]
  pending := h.pending

/-- Both read the same bytes of XFER. -/
theorem readXfer (h : StreamAgrees s t) : t.readXfer = s.readXfer := ramBytes_congr h.ramByte _ _

/-- A command's fault depends on its operands and on XFER alone (R82). -/
theorem commandFaults_iff (h : StreamAgrees s t) (i : Instr) (f : EngineFault) :
    commandFaults i t f ↔ commandFaults i s f := by
  have hheader : malformedHeader t ↔ malformedHeader s := by simp only [malformedHeader, h.ramByte _]
  cases i <;> simp only [commandFaults, hheader]

/-- What a completing command writes to LIVE it reads from its operands, LIVE and the RAMs alone. -/
theorem live_completedState (h : StreamAgrees s t) (i : Instr) :
    (completedState i t).live = (completedState i s).live := by
  cases i with
  | update off len => simp only [completedState, complete_live, absorbLive_live, h.live, h.ramByte _]
  | restore len => exact congrArg unblob h.readXfer
  | init => rfl
  | _ => exact h.live

/-- What a completing command writes to the RAMs it reads from LIVE alone. -/
theorem ramByte_completedState (h : StreamAgrees s t) (i : Instr) :
    sameRam (completedState i s) (completedState i t) := by
  intro a
  by_cases hi : i = .exportState
  · rw [hi, completedState_exportState_ramByte, completedState_exportState_ramByte, h.live, h.ramByte a]
  · rw [completedState_ramByte hi, completedState_ramByte hi, h.ramByte a]

/-- The same command, completed in both states. -/
theorem completedState_agrees (h : StreamAgrees s t) (i : Instr) :
    StreamAgrees (completedState i s) (completedState i t) where
  live := h.live_completedState i
  ramByte := h.ramByte_completedState i
  ramDraw := by rw [completedState_ramDraw, completedState_ramDraw, h.ramDraw]
  pending := by rw [completedState_pending, completedState_pending, h.pending]

/-- The same command, in both states, faults in both or completes in both. -/
theorem exec_next (h : StreamAgrees s t) {i : Instr} {s' : State} (hs : exec i s = .next s') :
    ∃ t', exec i t = .next t' ∧ StreamAgrees s' t' := by
  rcases exec_next_cases hs with ⟨f, hf, rfl⟩ | ⟨hnf, rfl⟩
  · exact ⟨_, exec_of_faults ((h.commandFaults_iff i f).2 hf), h.raiseFault f⟩
  · exact ⟨_, exec_eq_completedState fun f hf => hnf f ((h.commandFaults_iff i f).1 hf), h.completedState_agrees i⟩

/-- The same word, issued in both states. -/
theorem issueCommand_next (h : StreamAgrees s t) {w : Word} {s' : State} (hs : issueCommand w s = .next s') :
    ∃ t', issueCommand w t = .next t' ∧ StreamAgrees s' t' := by
  rcases issueCommand_cases hs with ⟨i, hdecode, hexec⟩ | ⟨why, hdecode, rfl⟩
  · obtain ⟨t', ht', hagrees⟩ := h.exec_next hexec
    exact ⟨t', by simp only [issueCommand, hdecode, ht'], hagrees⟩
  · exact ⟨_, issueCommand_of_illegal hdecode t, h.raiseFault _⟩

/-- The same host write, by its kind. -/
theorem hostWrite_next (h : StreamAgrees s t) {off size : Nat} {v : Word} {s' : State}
    (hs : hostWrite off size v s = .next s') : ∃ t', hostWrite off size v t = .next t' ∧ StreamAgrees s' t' := by
  unfold hostWrite at hs ⊢
  cases hk : writeKind off size with rw [hk] at hs
  | notReached => cases hs; exact ⟨_, rfl, h.respond _ _⟩
  | busError => cases hs; exact ⟨_, rfl, h.respond _ _⟩
  | command => exact (h.respond _ _).issueCommand_next hs
  | store => cases hs; exact ⟨_, rfl, (h.writeRam _ _).respond _ _⟩
  | ignored => cases hs; exact ⟨_, rfl, h.respond _ _⟩

/-- The same host operation. A read's two answers may differ; the relation does not read them. -/
theorem performOp_next (h : StreamAgrees s t) {op : HostOp} {s' : State} (hs : performOp op s = .next s') :
    ∃ t', performOp op t = .next t' ∧ StreamAgrees s' t' := by
  cases op with
  | read off size => cases hs; exact ⟨_, rfl, h.respond _ _⟩
  | write off size v => exact h.hostWrite_next hs
  | reset => cases hs; exact ⟨_, rfl, h.hardwareReset⟩

/-- The next step: both take the same operation. -/
theorem step_next (h : StreamAgrees s t) {s' : State} (hs : step s = .next s') :
    ∃ t', step t = .next t' ∧ StreamAgrees s' t' := by
  obtain ⟨op, rest, hpending, hop⟩ := step_cases hs
  rw [step, nextOp_cons t (h.pending.trans hpending)]
  exact (h.takeOp rest).performOp_next hop

end StreamAgrees

/-- Settles O47: every step keeps `StreamAgrees`, which reads no output register and no flag. -/
theorem outputRegistersNeverFeedBack : Obligations.OutputRegistersNeverFeedBack := by
  rintro s t s' ⟨hlive, hram⟩ hdraw hpending hs
  obtain ⟨t', ht', hagrees⟩ := StreamAgrees.step_next ⟨hlive, hram, hdraw, hpending⟩ hs
  exact ⟨t', ht', ⟨hagrees.live, hagrees.ramByte⟩, hagrees.ramDraw, hagrees.pending⟩

end Sys2Proof.Machine
end

section
/-! The RAM list stays canonical, and inside XFER and CHUNK, along every step. -/

namespace Sys2Proof.Machine

/-- The invariant reads the RAM list alone. -/
theorem ramCanonical_of_ram_eq {s t : State} (hs : ramCanonical s) (h : t.ram = s.ram) : ramCanonical t := by
  rwa [ramCanonical, h]

/-- Bytes stored at offsets of XFER and CHUNK keep the RAM list canonical. -/
theorem ramCanonical_writeRam {s : State} (hs : ramCanonical s) {a : Nat} {vs : List Byte}
    (hin : ∀ k < vs.length, inRam (a + k)) : ramCanonical (s.writeRam a vs) := by
  obtain ⟨hwf, hinRam⟩ := hs
  refine ⟨storeBytes_wf a vs hwf, fun c hc => ?_⟩
  rcases mem_storeBytes hc with ⟨hlo, hhi⟩ | hold
  · obtain ⟨k, hk⟩ := Nat.exists_eq_add_of_le hlo
    exact hk ▸ hin k (by omega)
  · exact hinRam c hold

/-- A write that stores keeps the RAM list canonical: all its bytes lie in one RAM (R35). -/
theorem ramCanonical_store {s : State} (hs : ramCanonical s) {off size : Nat} (v : Word)
    (hkind : writeKind off size = .store) : ramCanonical (s.writeRam off (writtenBytes size v)) := by
  obtain ⟨_, hin⟩ := writeKind_store hkind
  exact ramCanonical_writeRam hs fun k hk => hin k (lt_of_lt_of_le hk (List.length_take_le _ _))

/-- EXPORT stores the blob of LIVE in XFER (R77). -/
theorem completedState_exportState_ram (s : State) :
    (completedState .exportState s).ram = (s.writeRam 0x0100 (blob s.live)).ram := by
  rw [completedState, complete_ram]

/-- A completing command keeps the RAM list canonical: EXPORT stores the 92 bytes of XFER, and no other command writes a
RAM (R16, R17, R77). -/
theorem ramCanonical_completedState (i : Instr) {s : State} (hs : ramCanonical s) :
    ramCanonical (completedState i s) := by
  by_cases hi : i = .exportState
  · have hxfer : ramCanonical (s.writeRam 0x0100 (blob s.live)) :=
      ramCanonical_writeRam hs fun k hk => .inl (by rw [blob_length] at hk; omega)
    exact hi ▸ ramCanonical_of_ram_eq hxfer (completedState_exportState_ram s)
  · exact ramCanonical_of_ram_eq hs (completedState_ram hi)

/-- Settles O24, by the cases of a host operation: only a store, EXPORT and the reset write the RAM list. -/
theorem stepKeepsTheRamCanonical : Obligations.StepKeepsTheRamCanonical := by
  intro s t hs h
  obtain ⟨op, rest, _, hop⟩ := step_cases h
  exact performOp_preserves (P := ramCanonical) hop
    (hrespond := fun _ _ hu => hu) (hstore := fun _ _ _ v hkind hu => ramCanonical_store hu v hkind)
    (hfault := fun _ _ hu => hu) (hcompleted := fun i _ hu => ramCanonical_completedState i hu)
    (hreset := fun _ _ _ => ⟨List.Pairwise.nil, nofun⟩) hs

end Sys2Proof.Machine
end

section
/-! The host window: what each kind of write does, what a read answers, and where each byte of the window comes from. -/

namespace Sys2Proof.Machine

/-! ## A host read by its answer, and a host write by its kind -/

theorem performOp_read_of_hostRead {s : State} {off size : Nat} {r : Response} (h : s.hostRead off size = r) :
    performOp (.read off size) s = .next { s with response := r } := by
  rw [performOp, h]
  rfl

section write
variable {off size : Nat} (v : Word) (s : State)

theorem performOp_write_of_notReached (h : writeKind off size = .notReached) :
    performOp (.write off size v) s = .next (s.respond .notReached) := by
  simp only [performOp, hostWrite, h]

theorem performOp_write_of_busError (h : writeKind off size = .busError) :
    performOp (.write off size v) s = .next (s.respond .busError) := by
  simp only [performOp, hostWrite, h]

theorem performOp_write_of_command (h : writeKind off size = .command) :
    performOp (.write off size v) s = issueCommand v (s.respond .accepted) := by
  simp only [performOp, hostWrite, h]

theorem performOp_write_of_store (h : writeKind off size = .store) :
    performOp (.write off size v) s = .next ((s.writeRam off (writtenBytes size v)).respond .accepted) := by
  simp only [performOp, hostWrite, h]

theorem performOp_write_of_ignored (h : writeKind off size = .ignored) :
    performOp (.write off size v) s = .next (s.respond .accepted) := by
  simp only [performOp, hostWrite, h]

end write

/-- A word that decodes runs its command (R46). -/
theorem issueCommand_of_command {w : Word} {i : Instr} (h : decodeWord w = .command i) (s : State) :
    issueCommand w s = exec i s := by
  simp only [issueCommand, h]

/-- Settles O6: the 4-byte write to CMD issues its word, and the word decodes to the command. -/
theorem stepRunsTheDecodedCommand : Obligations.StepRunsTheDecodedCommand := by
  intro s w rest i hpending hdecode
  rw [step, nextOp_cons s hpending, performOp_write_of_command w _ writeKind_cmd, issueCommand_of_command hdecode]
  rfl

/-! ## The access rules -/

/-- A write beyond the window does not reach this engine (R30). -/
theorem writeKind_of_beyond {off : Nat} (h : 0x2000 ≤ off) (size : Nat) : writeKind off size = .notReached :=
  if_pos h

/-- Settles O17: a read leaves every state alone but for the answer, and a write beyond the window does not reach it. -/
theorem accessesBeyondTheWindowDoNotReachTheEngine : Obligations.AccessesBeyondTheWindowDoNotReachTheEngine :=
  fun s _ size v hoff =>
    ⟨⟨_, rfl, rfl⟩, ⟨_, performOp_write_of_notReached v s (writeKind_of_beyond hoff size), rfl⟩⟩

theorem not_windowBytes_le {off : Nat} (h : off < 0x2000) : ¬ Config.windowBytes ≤ off := not_le.2 h

section notAligned
variable {off size : Nat} (hoff : off < 0x2000) (ha : ¬ aligned off size)
include hoff ha

/-- A read inside the window against the access rules is a bus error (R32). -/
theorem hostRead_of_not_aligned (s : State) : s.hostRead off size = .busError := by
  rw [State.hostRead, if_neg (not_windowBytes_le hoff), if_neg ((legalAccess_iff off size).not.2 ha)]

/-- A write inside the window against the access rules is a bus error (R32). -/
theorem writeKind_of_not_aligned : writeKind off size = .busError := by
  rw [writeKind, if_neg (not_windowBytes_le hoff), if_neg ((legalAccess_iff off size).not.2 ha)]

end notAligned

/-- Settles O10, by the access rule for reads and that for writes. -/
theorem badAccessesGetABusErrorAndChangeNothing : Obligations.BadAccessesGetABusErrorAndChangeNothing :=
  fun s _ _ v hoff ha => ⟨performOp_read_of_hostRead (hostRead_of_not_aligned hoff ha s),
    performOp_write_of_busError v s (writeKind_of_not_aligned hoff ha)⟩

/-- STATUS, DIGEST, HEX and the reserved ranges are what lies between CMD and XFER and between XFER and CHUNK (R31). -/
theorem regionOf_readOnly {off : Nat} (h : (0x0004 ≤ off ∧ off < 0x0100) ∨ (0x015C ≤ off ∧ off < 0x1000)) :
    regionOf off = .status ∨ regionOf off = .digest ∨ regionOf off = .hex ∨ regionOf off = .reserved := by
  rw [regionOf_status, regionOf_digest, regionOf_hex, regionOf_reserved]
  omega

/-- An aligned write there is accepted and ignored (R35). -/
theorem writeKind_of_readOnly {off size : Nat}
    (h : (0x0004 ≤ off ∧ off < 0x0100) ∨ (0x015C ≤ off ∧ off < 0x1000)) (ha : aligned off size) :
    writeKind off size = .ignored := by
  rw [writeKind, if_neg (not_windowBytes_le (by omega)), if_pos ((legalAccess_iff off size).2 ha)]
  rcases regionOf_readOnly h with hr | hr | hr | hr <;> rw [hr]

/-- Settles O12, by the access rule of those offsets. -/
theorem readOnlyOffsetsIgnoreWrites : Obligations.ReadOnlyOffsetsIgnoreWrites :=
  fun s _ _ v hoff ha => performOp_write_of_ignored v s (writeKind_of_readOnly hoff ha)

/-! ## Where each byte of the window comes from -/

section windowByte
variable (s : State)

/-- STATUS reads as its word, lowest byte first (R21, R33). -/
theorem windowByte_status {k : Nat} (h : k < 4) : s.windowByte (0x0004 + k) = byteOfWord s.status k := by
  have hr : regionOf (0x0004 + k) = .status := (regionOf_status _).2 (by omega)
  simp only [State.windowByte, hr, Nat.add_sub_cancel_left, getD_bytesLe32 _ _ h, byteOfWord]

/-- DIGEST reads as the register (R31). -/
theorem windowByte_digest {k : Nat} (h : k < 16) : s.windowByte (0x0010 + k) = s.digest.toList.getD k 0 := by
  have hr : regionOf (0x0010 + k) = .digest := (regionOf_digest _).2 (by omega)
  simp only [State.windowByte, hr, Nat.add_sub_cancel_left]

/-- HEX reads as the register (R31). -/
theorem windowByte_hex {k : Nat} (h : k < 32) : s.windowByte (0x0020 + k) = s.hex.toList.getD k 0 := by
  have hr : regionOf (0x0020 + k) = .hex := (regionOf_hex _).2 (by omega)
  simp only [State.windowByte, hr, Nat.add_sub_cancel_left]

/-- XFER and CHUNK read as the RAM (R35). -/
theorem windowByte_inRam {a : Nat} (h : inRam a) : s.windowByte a = s.ramByte a := by
  rcases h with h | ⟨h, _⟩
  · simp only [State.windowByte, (regionOf_xfer a).2 h]
  · simp only [State.windowByte, (regionOf_chunk a).2 h]

/-- Reserved offsets read 0 (R35). -/
theorem windowByte_reserved {a : Nat}
    (h : (0x0008 ≤ a ∧ a < 0x0010) ∨ (0x0040 ≤ a ∧ a < 0x0100) ∨ (0x015C ≤ a ∧ a < 0x1000)) :
    s.windowByte a = 0 := by
  simp only [State.windowByte, (regionOf_reserved a).2 h]

end windowByte

/-- Byte `k` of a register of `n` bytes. -/
theorem getD_toList_vector {n : Nat} (r : Vector Byte n) (k : Nat) (h : k < n) : r.toList.getD k 0 = r[k] := by
  rw [List.getD_eq_getElem _ _ (by simpa using h), Vector.getElem_toList]

/-- Settles O13, region by region. -/
theorem windowMapContents : Obligations.WindowMapContents := fun s =>
  ⟨fun _ hk => windowByte_cmd s hk, fun _ hk => windowByte_status s hk,
    fun k hk => (windowByte_digest s hk).trans (getD_toList_vector s.digest k hk),
    fun k hk => (windowByte_hex s hk).trans (getD_toList_vector s.hex k hk),
    fun _ ha => windowByte_inRam s ha, fun _ ha => windowByte_reserved s ha⟩

/-! ## Writes to the RAMs -/

/-- An access moves at most 4 bytes (R32). -/
theorem size_le_of_aligned {off size : Nat} (h : aligned off size) : size ≤ 4 := by
  obtain ⟨hsize, _⟩ := h
  omega

section writtenBytes
variable {size : Nat} (hsize : size ≤ 4) (v : Word)
include hsize

theorem writtenBytes_length : (writtenBytes size v).length = size := by
  rw [writtenBytes, List.length_take_of_le (by rwa [bytesLe32_length])]

/-- Byte `k` that a write moves is bits [8k+7:8k] of its value (R33). -/
theorem getD_writtenBytes {k : Nat} (hk : k < size) : (writtenBytes size v).getD k 0 = byteOfWord v k := by
  rw [byteOfWord, ← getD_bytesLe32 v k (by omega), writtenBytes, List.getD, List.getD, List.getElem?_take_of_lt hk]

/-- A RAM byte after a store: the value's byte where the write put it, the old one elsewhere (R33, R35). -/
theorem ramByte_store (s : State) (off a : Nat) : (s.writeRam off (writtenBytes size v)).ramByte a =
    if off ≤ a ∧ a < off + size then byteOfWord v (a - off) else s.ramByte a := by
  rw [ramByte_writeRam, writtenBytes_length hsize]
  split
  · next hin => exact getD_writtenBytes hsize v (by omega)
  · rfl

/-- A byte read back where a store put it. -/
theorem ramByte_store_same (s : State) (off : Nat) {k : Nat} (hk : k < size) :
    (s.writeRam off (writtenBytes size v)).ramByte (off + k) = byteOfWord v k := by
  rw [ramByte_store hsize, if_pos (by omega), Nat.add_sub_cancel_left]

end writtenBytes

/-- Settles O15: the write is a store, whose bytes read back and which leaves the RAM outside them. -/
theorem ramWritesStoreTheirBytesAlone : Obligations.RamWritesStoreTheirBytesAlone := by
  intro s off size v hoff ha
  have hsize := size_le_of_aligned ha
  refine ⟨_, performOp_write_of_store v s (writeKind_inRam hoff ha), fun k hk => ?stored, fun a hout => ?outside, rfl⟩
  case stored => exact ramByte_store_same hsize v s off hk
  case outside => rw [respond_ramByte, ramByte_store hsize, if_neg (by omega)]

/-! ## The lanes of the data value -/

/-- Byte `k` of the data a read answers is the window byte `k` further on (R33). -/
theorem byteOfWord_le32_windowBytes (s : State) (off : Nat) {size k : Nat} (hsize : size ≤ 4) (hk : k < size) :
    byteOfWord (le32 (s.windowBytes off size) 0) k = s.windowByte (off + k) := by
  rw [byteOfWord, byte_le32 _ _ _ (by omega), Nat.zero_add, getD_windowBytes _ _ _ _ hk]

/-- After a store the window holds the value's bytes (R33, R35). -/
theorem windowByte_store (s : State) {off size k : Nat} (v : Word) (hkind : writeKind off size = .store)
    (hk : k < size) : (s.writeRam off (writtenBytes size v)).windowByte (off + k) = byteOfWord v k := by
  obtain ⟨ha, hin⟩ := writeKind_store hkind
  rw [windowByte_inRam _ (hin k hk), ramByte_store_same (size_le_of_aligned ha) v s off hk]

/-- A word whose upper three bytes are missing is its lowest byte, zero-extended. -/
theorem le32_singleton (b : Byte) : le32 [b] 0 = b.setWidth 32 := by simp [le32]

/-- The 1-byte read at 0x0005 answers STATUS[15:8], zero-extended (R33; the upper bits: log entry 8). -/
theorem hostRead_status_byte_one (s : State) :
    s.hostRead 0x0005 1 = .data ((s.status.extractLsb' 8 8).setWidth 32) := by
  have hbyte : s.windowByte 0x0005 = s.status.extractLsb' 8 8 := windowByte_status s (k := 1) (by decide)
  rw [hostRead_of_aligned s (by decide) ⟨.inl rfl, rfl⟩, State.windowBytes, State.windowBytes, le32_singleton, hbyte]

/-- The 4-byte read at 0x0010 answers the first word of DIGEST, little-endian (R33). -/
theorem hostRead_digest_word_zero (s : State) : s.hostRead 0x0010 4 = .data (le32 s.digest.toList 0) := by
  have hword : le32 (s.windowBytes 0x0010 4) 0 = le32 s.digest.toList 0 := word_ext fun k hk => by
    rw [byte_le32 _ _ _ hk, byte_le32 _ _ _ hk, Nat.zero_add, getD_windowBytes _ _ _ _ hk,
      windowByte_digest s (by omega)]
  rw [hostRead_of_aligned s (by decide) ⟨.inr (.inr rfl), rfl⟩, hword]

/-- Settles O14: a read gathers window bytes into the lanes, a store lays the lanes out, and the three readings follow. -/
theorem littleEndianLanes : Obligations.LittleEndianLanes := by
  refine fun s => ⟨fun off size hoff ha => ⟨?read, fun hin v => ?write⟩, performOp_read_of_hostRead (hostRead_status s),
    performOp_read_of_hostRead (hostRead_status_byte_one s), performOp_read_of_hostRead (hostRead_digest_word_zero s)⟩
  case read =>
    exact ⟨_, performOp_read_of_hostRead (hostRead_of_aligned s hoff ha),
      fun k hk => byteOfWord_le32_windowBytes s off (size_le_of_aligned ha) hk⟩
  case write =>
    have hkind := writeKind_inRam hin ha
    exact ⟨_, performOp_write_of_store v s hkind, fun k hk => windowByte_store s v hkind hk⟩

end Sys2Proof.Machine
end

section
/-! The command word and the command are one another's images: the decoder undoes the encoder, and the encoder the
decoder. -/

namespace Sys2Proof

/-! ## The decoder and the encoder by the fields of a command -/

/-- A word decodes to a command exactly when RSV is 0 and its fields are the command's (R42, R46). -/
theorem decodeWord_eq_command_iff {w : Word} {i : Instr} : decodeWord w = .command i ↔
    fieldRsv w = 0 ∧ (fieldOp w, fieldOff w, fieldLen w) = commandFields i := by
  refine ⟨fields_of_decodeWord, fun ⟨hrsv, hfields⟩ => ?_⟩
  cases i <;>
  · simp only [commandFields, Prod.mk.injEq] at hfields
    obtain ⟨hop, hoff, hlen⟩ := hfields
    simp [decodeWord, requireZero, hrsv, hop, hoff, hlen]

theorem encode_eq_encodeFields (i : Instr) :
    encode i = encodeFields (commandFields i).1 (commandFields i).2.1 (commandFields i).2.2 := by
  cases i <;> rfl

theorem commandFields_op_lt (i : Instr) : (commandFields i).1 < 16 := by
  cases i <;> simp [commandFields]

theorem wellFormed_iff_fields_lt (i : Instr) :
    i.wellFormed = true ↔ (commandFields i).2.1 < 8192 ∧ (commandFields i).2.2 < 8192 := by
  cases i <;> simp [Instr.wellFormed, fitsField, commandFields]

/-! ## From the command to the word and back -/

/-- The decoder undoes the encoder: each field of the encoded word is the operand put in. -/
theorem decodeWord_encode {i : Instr} (h : i.wellFormed = true) : decodeWord (encode i) = .command i := by
  obtain ⟨hoff, hlen⟩ := (wellFormed_iff_fields_lt i).1 h
  obtain ⟨hop', hrsv', hoff', hlen'⟩ := fields_encodeFields _ _ _ (commandFields_op_lt i) hoff hlen
  rw [encode_eq_encodeFields, decodeWord_eq_command_iff, hop', hoff', hlen']
  exact ⟨hrsv', rfl⟩

/-- The decoder of bytes reads the word its first four bytes lay out, and leaves the rest (R33, R41). -/
theorem decodeBytes_of_command {w : Word} {i : Instr} (h : decodeWord w = .command i) (rest : List Byte) :
    decodeBytes (bytesLe32 w ++ rest) = .command i rest := by
  have hword : le32 (bytesLe32 w) 0 = w := le32_bytesLe32 w
  simp only [bytesLe32] at hword
  simp only [bytesLe32, List.cons_append, List.nil_append, decodeBytes, hword, h]

/-- Settles O1, by the round trip on words and the byte order of the decoder of bytes. -/
theorem decodeOfEncodeIsTheCommand : Obligations.DecodeOfEncodeIsTheCommand := fun _ rest h =>
  ⟨decodeWord_encode h, decodeBytes_of_command (decodeWord_encode h) rest⟩

/-! ## From the word to the command and back -/

/-- OFF and LEN of every word fit their 13 bits (R43). -/
theorem fieldOff_lt_and_fieldLen_lt (w : Word) : fieldOff w < 8192 ∧ fieldLen w < 8192 :=
  ⟨Nat.mod_lt _ (by decide), Nat.mod_lt _ (by decide)⟩

/-- A word with RSV 0 is put together again from its other fields: they cover every bit (R42). -/
theorem encodeFields_fields {w : Word} (hrsv : fieldRsv w = 0) :
    encodeFields (fieldOp w) (fieldOff w) (fieldLen w) = w := by
  have hop : fieldOp w < 16 := Nat.mod_lt _ (by decide)
  obtain ⟨hoff, hlen⟩ := fieldOff_lt_and_fieldLen_lt w
  apply BitVec.eq_of_toNat_eq
  rw [encodeFields_toNat _ _ _ hop hoff hlen]
  have hw := fields_toNat w
  omega

/-- A word that decodes to a command is the encoding of it, a well-formed one: the fields are the command's. -/
theorem wellFormed_and_encode_of_decodeWord {w : Word} {i : Instr} (h : decodeWord w = .command i) :
    i.wellFormed = true ∧ encode i = w := by
  obtain ⟨hrsv, hfields⟩ := fields_of_decodeWord h
  rw [wellFormed_iff_fields_lt, encode_eq_encodeFields, ← hfields]
  exact ⟨fieldOff_lt_and_fieldLen_lt w, encodeFields_fields hrsv⟩

/-- Settles O2: a decoded word is the sum of its fields, which are the command's. -/
theorem encodeOfDecodeIsTheWord : Obligations.EncodeOfDecodeIsTheWord :=
  fun _ _ h => wellFormed_and_encode_of_decodeWord h

/-- Settles O5, by running the decoder on each word. -/
theorem listedWordsDecodeAsListed : Obligations.ListedWordsDecodeAsListed := by
  unfold Obligations.ListedWordsDecodeAsListed
  decide

end Sys2Proof
end

section
/-! The opcode map: a row selects a word exactly when the word decodes to the row's command. -/

namespace Sys2Proof

/-! ## From the row to the command -/

/-- A word that a row selects is the row's match plus a number in the bits below the mask (R44). -/
theorem OpcodeRow.toNat_of_selects {r : OpcodeRow} {w : Word} (op n : Nat) (hn : n ≤ 32)
    (hmatch : r.matchBits.toNat = op * 2 ^ 28) (hmask : r.mask.toNat = 2 ^ 32 - 2 ^ n) (h : r.selects w = true) :
    ∃ low < 2 ^ n, w.toNat = op * 2 ^ 28 + low := by
  have hhigh : w.toNat / 2 ^ n * 2 ^ n = op * 2 ^ 28 := by
    rw [← and_highMask w r.mask n hn hmask, beq_iff_eq.1 h, hmatch]
  exact ⟨w.toNat % 2 ^ n, Nat.mod_lt _ (Nat.two_pow_pos n), by rw [← hhigh, Nat.div_add_mod']⟩

/-- A word whose number is the sum of a command's fields, each in range, decodes to the command. -/
theorem decodeWord_of_toNat {w : Word} {i : Instr} {op off len : Nat} (hi : commandFields i = (op, off, len))
    (hoff : off < 8192) (hlen : len < 8192) (h : w.toNat = op * 2 ^ 28 + off * 2 ^ 13 + len) :
    decodeWord w = .command i := by
  rw [decodeWord_eq_command_iff, hi, Prod.mk.injEq, Prod.mk.injEq]
  have hw := fields_toNat w
  omega

/-- A word that a row of the opcode map selects decodes to a command of the row's mnemonic: the bits the mask leaves
free are the command's operands. -/
theorem decodeWord_of_selects {r : OpcodeRow} {w : Word} (hr : r ∈ opcodeMap) (h : r.selects w = true) :
    ∃ i, decodeWord w = .command i ∧ i.mnemonic = r.mnemonic := by
  simp only [opcodeMap, List.mem_cons, List.not_mem_nil, or_false] at hr
  rcases hr with rfl | rfl | rfl | rfl | rfl | rfl
  · have hw := OpcodeRow.toNat_of_selects 1 0 (by decide) rfl (by decide) h
    exact ⟨.init, decodeWord_of_toNat rfl (by decide) (by decide) (by simpa using hw), rfl⟩
  · obtain ⟨low, hlow, hw⟩ := OpcodeRow.toNat_of_selects 2 26 (by decide) rfl (by decide) h
    exact ⟨.update (low / 8192) (low % 8192), decodeWord_of_toNat rfl (by omega) (by omega) (by omega), rfl⟩
  · have hw := OpcodeRow.toNat_of_selects 3 0 (by decide) rfl (by decide) h
    exact ⟨.peek, decodeWord_of_toNat rfl (by decide) (by decide) (by simpa using hw), rfl⟩
  · have hw := OpcodeRow.toNat_of_selects 4 0 (by decide) rfl (by decide) h
    exact ⟨.exportState, decodeWord_of_toNat rfl (by decide) (by decide) (by simpa using hw), rfl⟩
  · obtain ⟨low, hlow, hw⟩ := OpcodeRow.toNat_of_selects 5 13 (by decide) rfl (by decide) h
    exact ⟨.restore low, decodeWord_of_toNat rfl (by decide) hlow (by omega), rfl⟩
  · obtain ⟨low, hlow, hw⟩ := OpcodeRow.toNat_of_selects 6 13 (by decide) rfl (by decide) h
    exact ⟨.compare low, decodeWord_of_toNat rfl (by decide) hlow (by omega), rfl⟩

/-! ## From the command to the row -/

/-- Every well-formed command's encoding is selected by a row of its mnemonic (R44). -/
theorem encode_selected (i : Instr) : Laws.EncodeMatchesRow.Statement i :=
  match i with
  | .init => Laws.EncodeMatchesRow.init
  | .update off len => Laws.EncodeMatchesRow.update off len
  | .peek => Laws.EncodeMatchesRow.peek
  | .exportState => Laws.EncodeMatchesRow.exportState
  | .restore len => Laws.EncodeMatchesRow.restore len
  | .compare len => Laws.EncodeMatchesRow.compare len

theorem exists_row_selects {w : Word} {i : Instr} (h : decodeWord w = .command i) :
    ∃ r ∈ opcodeMap, r.mnemonic = i.mnemonic ∧ r.selects w = true := by
  obtain ⟨hwf, rfl⟩ := wellFormed_and_encode_of_decodeWord h
  exact (encode_selected i hwf).2

/-- No mnemonic stands in two rows of the opcode map. -/
theorem opcodeMap_mnemonic_injective {r r' : OpcodeRow} (hr : r ∈ opcodeMap) (hr' : r' ∈ opcodeMap)
    (h : r.mnemonic = r'.mnemonic) : r = r' :=
  List.inj_on_of_nodup_map (show (opcodeMap.map (·.mnemonic)).Nodup by decide) hr hr' h

/-- Of the rows of the opcode map, those of the decoded command's mnemonic select the word, and no other. -/
theorem selects_iff_mnemonic {w : Word} {i : Instr} (h : decodeWord w = .command i) {r : OpcodeRow}
    (hr : r ∈ opcodeMap) : r.selects w = true ↔ r.mnemonic = i.mnemonic := by
  constructor
  · intro hsel
    obtain ⟨j, hj, hname⟩ := decodeWord_of_selects hr hsel
    cases h.symm.trans hj
    exact hname.symm
  · intro hname
    obtain ⟨r', hr', hname', hsel⟩ := exists_row_selects h
    rwa [opcodeMap_mnemonic_injective hr hr' (hname.trans hname'.symm)]

/-- The opcode map has exactly one row of each command's mnemonic. -/
theorem opcodeMap_filter_mnemonic (i : Instr) :
    (opcodeMap.filter fun r => r.mnemonic == i.mnemonic).map (·.mnemonic) = [i.mnemonic] := by
  cases i <;> rfl

theorem filter_selects_mnemonic {w : Word} {i : Instr} (h : decodeWord w = .command i) :
    (opcodeMap.filter (·.selects w)).map (·.mnemonic) = [i.mnemonic] := by
  rw [← opcodeMap_filter_mnemonic i]
  congr 1
  refine List.filter_congr fun r hr => Bool.eq_iff_iff.2 ?_
  rw [beq_iff_eq]
  exact selects_iff_mnemonic h hr

/-- A word is illegal exactly when no row selects it: a selected word decodes, and a decoded word is selected. -/
theorem illegal_iff_not_selected (w : Word) :
    (∃ why, decodeWord w = .illegal why) ↔ opcodeMap.filter (·.selects w) = [] := by
  rw [List.filter_eq_nil_iff]
  constructor
  · rintro ⟨why, hillegal⟩ r hr hsel
    obtain ⟨i, hi, _⟩ := decodeWord_of_selects hr hsel
    cases hillegal.symm.trans hi
  · intro hnone
    cases hdecode : decodeWord w with
    | illegal why => exact ⟨why, rfl⟩
    | command i =>
      obtain ⟨r, hr, _, hsel⟩ := exists_row_selects hdecode
      exact absurd hsel (hnone r hr)

/-- Settles O3, by the row of a decoded word and the absence of one for an illegal word. -/
theorem opcodeMapSelectsTheCommand : Obligations.OpcodeMapSelectsTheCommand :=
  fun w => ⟨fun _ h => filter_selects_mnemonic h, illegal_iff_not_selected w⟩

end Sys2Proof
end

section
/-! What an illegal word is, and what it does to the engine. -/

namespace Sys2Proof.Machine

/-- The fields a statement extracts bit by bit are the decoder's (R42). -/
theorem toNat_extractLsb'_eq_bitField (w : Word) (lo n : Nat) : (w.extractLsb' lo n).toNat = bitField w lo n :=
  BitVec.extractLsb'_toNat lo n w

/-- Settles O4: the condition is that on the decoder's fields, and issuing an illegal word has the fault effect. -/
theorem illegalWordsRaiseIllegalCommand : Obligations.IllegalWordsRaiseIllegalCommand := by
  intro w
  simp only [toNat_extractLsb'_eq_bitField]
  exact ⟨illegal_iff_fields w, fun s ⟨_, hillegal⟩ => issueCommand_of_illegal hillegal s⟩

/-- Settles O7: the 4-byte write to CMD issues its word, and the word is illegal. -/
theorem stepFaultsOnAnIllegalWord : Obligations.StepFaultsOnAnIllegalWord := by
  intro s w rest why hpending hillegal
  rw [step, nextOp_cons s hpending, performOp_write_of_command w _ writeKind_cmd, issueCommand_of_illegal hillegal]
  rfl

end Sys2Proof.Machine
end

section
/-! The compression engine: the schedule, the round functions, the rotations, the order of reading, the 64 steps. -/

namespace Sys2Proof.Machine

/-! ## The schedule -/

theorem schedule_length (B : Block) : (schedule B).length = 16 := by
  rw [schedule, List.length_map, List.length_range]

/-- Word `j` of the schedule is read little-endian at byte `4j` (R53). -/
theorem getD_schedule (B : Block) {j : Nat} (hj : j < 16) : (schedule B).getD j 0 = le32 B.toList (4 * j) := by
  rw [List.getD_eq_getElem _ _ (by rwa [schedule_length])]
  simp only [schedule, List.getElem_map, List.getElem_range]

/-- Settles O29: a word read little-endian at `4j` has the bytes of the block from `4j` on. -/
theorem scheduleIsLittleEndian : Obligations.ScheduleIsLittleEndian := by
  refine fun B j k hj hk => ⟨schedule_length B, ?_⟩
  rw [getD_schedule B hj, byteOfWord, byte_le32 _ _ _ hk, getD_toList_vector B _ (by omega)]

/-! ## The rotations -/

/-- For the amounts a step uses, `rotl32` is the rotation of the library. -/
theorem rotl32_eq_rotateLeft (x : Word) {r : Nat} (hr : r < 32) : rotl32 x r = x.rotateLeft r :=
  (BitVec.rotateLeft_eq_rotateLeftAux_of_lt hr).symm

/-- Bit `n` moves to `n + r`, or past the top to `n + r - 32` (R61). -/
theorem getLsbD_rotl32_add_mod (x : Word) {r n : Nat} (hr : r < 32) (hn : n < 32) :
    (rotl32 x r).getLsbD ((n + r) % 32) = x.getLsbD n := by
  rw [rotl32_eq_rotateLeft x hr, BitVec.getLsbD_rotateLeft_of_le hr]
  by_cases hwrap : n + r < 32
  · have hge : ¬ n + r < r := by omega
    simp [Nat.mod_eq_of_lt hwrap, hge, hwrap]
  · have hmod : (n + r) % 32 = n + r - 32 := by omega
    have hlt : n + r - 32 < r := by omega
    have hback : 32 - r + (n + r - 32) = n := by omega
    simp [hmod, hlt, hback]

theorem rotateRow_length (i : Nat) : (rotateRow i).length = 4 := by
  unfold rotateRow
  split_ifs <;> rfl

/-- Every row of R56's table lies in 4 to 23. -/
theorem rotateRow_mem_bounds (i : Nat) : ∀ s ∈ rotateRow i, 4 ≤ s ∧ s ≤ 23 := by
  unfold rotateRow
  split_ifs <;> decide

theorem rotateAmount_mem_rotateRow (i : Nat) : rotateAmount i ∈ rotateRow i := by
  have hcol : i % 4 < (rotateRow i).length := by
    rw [rotateRow_length]
    exact Nat.mod_lt _ (by decide)
  rw [rotateAmount, List.getD_eq_getElem _ _ hcol]
  exact List.getElem_mem hcol

/-- Settles O31: `rotl32` is the library's rotation, and each amount stands in a row of R56's table. -/
theorem rotatesArePureRotations : Obligations.RotatesArePureRotations :=
  ⟨fun x _ _ hr _ hn => getLsbD_rotl32_add_mod x (by omega) hn,
    fun i _ => rotateRow_mem_bounds i _ (rotateAmount_mem_rotateRow i)⟩

/-! ## The round functions -/

section roundBits
variable (x y z : Word) {n : Nat}

theorem getLsbD_roundF (hn : n < 32) :
    (roundF x y z).getLsbD n = if x.getLsbD n then y.getLsbD n else z.getLsbD n := by
  simp only [roundF, BitVec.getLsbD_or, BitVec.getLsbD_and, BitVec.getLsbD_not, hn, decide_true, Bool.true_and]
  cases x.getLsbD n <;> simp

theorem getLsbD_roundG (hn : n < 32) :
    (roundG x y z).getLsbD n = if z.getLsbD n then x.getLsbD n else y.getLsbD n := by
  simp only [roundG, BitVec.getLsbD_or, BitVec.getLsbD_and, BitVec.getLsbD_not, hn, decide_true, Bool.true_and]
  cases z.getLsbD n <;> simp

theorem getLsbD_roundH : (roundH x y z).getLsbD n = ((x.getLsbD n ^^ y.getLsbD n) ^^ z.getLsbD n) := by
  simp only [roundH, BitVec.getLsbD_xor]

theorem getLsbD_roundI (hn : n < 32) :
    (roundI x y z).getLsbD n = (y.getLsbD n ^^ (x.getLsbD n || !z.getLsbD n)) := by
  simp only [roundI, BitVec.getLsbD_xor, BitVec.getLsbD_or, BitVec.getLsbD_not, hn, decide_true, Bool.true_and]

end roundBits

section roundOfStep
variable {i : Nat}

theorem roundFn_of_round1 (h : i < 16) : roundFn i = roundF := by
  funext x y z
  rw [roundFn, if_pos h]

theorem roundFn_of_round2 (h : 16 ≤ i) (h' : i < 32) : roundFn i = roundG := by
  funext x y z
  rw [roundFn, if_neg (by omega), if_pos h']

theorem roundFn_of_round3 (h : 32 ≤ i) (h' : i < 48) : roundFn i = roundH := by
  funext x y z
  rw [roundFn, if_neg (by omega), if_neg (by omega), if_pos h']

theorem roundFn_of_round4 (h : 48 ≤ i) : roundFn i = roundI := by
  funext x y z
  rw [roundFn, if_neg (by omega), if_neg (by omega), if_neg (by omega)]

end roundOfStep

/-- Settles O30, round by round. -/
theorem roundFunctionsBitByBit : Obligations.RoundFunctionsBitByBit := by
  intro x y z i n hn
  refine ⟨fun h => ?F, fun h h' => ?G, fun h h' => ?H, fun h => ?I⟩
  case F => rw [roundFn_of_round1 h, getLsbD_roundF x y z hn]
  case G => rw [roundFn_of_round2 h h', getLsbD_roundG x y z hn]
  case H => rw [roundFn_of_round3 h h', getLsbD_roundH]
  case I => rw [roundFn_of_round4 h, getLsbD_roundI x y z hn]

/-! ## The order in which a round reads the message words -/

/-- An affine index with a factor prime to 16 runs through the sixteen words once each. -/
theorem affine_mod_sixteen_perm (c : Nat) {m : Nat} (hm : Nat.Coprime 16 m) :
    ((List.range 16).map fun j => (c + m * j) % 16).Perm (List.range 16) := by
  have hnodup : ((List.range 16).map fun j => (c + m * j) % 16).Nodup := by
    refine List.Nodup.map_on (fun a ha b hb h => ?_) List.nodup_range
    have hab : a ≡ b [MOD 16] := Nat.ModEq.cancel_left_of_coprime hm (Nat.ModEq.add_left_cancel' c h)
    exact hab.eq_of_lt_of_lt (List.mem_range.1 ha) (List.mem_range.1 hb)
  have hrange : ((List.range 16).map fun j => (c + m * j) % 16) ⊆ List.range 16 := by
    intro k hk
    obtain ⟨j, -, rfl⟩ := List.mem_map.1 hk
    exact List.mem_range.2 (Nat.mod_lt _ (by decide))
  exact (hnodup.subperm hrange).perm_of_length_le (by simp)

/-- In each round k(i) is affine in `i mod 16`, with the factor 1, 5, 3 or 7 (R57). -/
theorem messageIndex_affine {r : Nat} (hr : r < 4) :
    ∃ c m, Nat.Coprime 16 m ∧ ∀ j < 16, messageIndex (16 * r + j) = (c + m * j) % 16 := by
  have hround : r = 0 ∨ r = 1 ∨ r = 2 ∨ r = 3 := by omega
  rcases hround with rfl | rfl | rfl | rfl
  · exact ⟨0, 1, by decide, by decide⟩
  · exact ⟨1, 5, by decide, by decide⟩
  · exact ⟨5, 3, by decide, by decide⟩
  · exact ⟨0, 7, by decide, by decide⟩

/-- Settles O32: the index is affine with an odd factor in each round. -/
theorem eachRoundReadsEveryWordOnce : Obligations.EachRoundReadsEveryWordOnce := by
  intro r hr
  obtain ⟨c, m, hm, hindex⟩ := messageIndex_affine hr
  rw [List.map_congr_left fun j hj => hindex j (List.mem_range.1 hj)]
  exact affine_mod_sixteen_perm c hm

/-! ## The 64 steps and the feed-forward -/

/-- The recursion over the steps is the loop of R59 over the step numbers in order. -/
theorem md5Steps_eq_foldl (X : List Word) (v : Words) (n : Nat) :
    md5Steps X v n = (List.range n).foldl (fun v i => md5Step X i v) v := by
  induction n with
  | zero => rfl
  | succ n ih => rw [md5Steps, ih, List.range_succ, List.foldl_concat]

/-- Settles O33: the loop of steps, then the word-wise sum. -/
theorem compressIsSixtyFourStepsAndFeedForward : Obligations.CompressIsSixtyFourStepsAndFeedForward := by
  intro W B
  rw [md5Compress, md5Steps_eq_foldl]
  rfl

/-! ## The worked example -/

/-- The words of the padded "abc" block (95_test_vectors §2.2). -/
theorem schedule_abc :
    schedule (blockOf ([0x61, 0x62, 0x63, 0x80] ++ List.replicate 52 0 ++ [0x18, 0, 0, 0, 0, 0, 0, 0])) =
      0x80636261 :: List.replicate 13 0 ++ [0x18, 0] := by
  decide +kernel

/-- The working values after step 63 (95_test_vectors §2.2). -/
theorem md5Steps_abc : md5Steps (0x80636261 :: List.replicate 13 0 ++ [0x18, 0]) initialWords 64 =
    ⟨0x310ade8f, 0xc08226b3, 0xe484b9d8, 0x624d8cb2⟩ := by
  decide +kernel

/-- Settles O34: the feed-forward adds the values after step 63 to IV. -/
theorem compressOfTheAbcBlock : Obligations.CompressOfTheAbcBlock := by
  rw [Obligations.CompressOfTheAbcBlock, md5Compress, schedule_abc]
  change initialWords.add (md5Steps _ initialWords 64) = _
  rw [md5Steps_abc]
  decide

end Sys2Proof.Machine
end

section
/-! The block-buffer controller: what absorb does to each byte, how it composes over chunks, and INIT and UPDATE on
LIVE. -/

namespace Sys2Proof.Machine

/-! ## Absorb byte by byte -/

theorem absorb_words (S : DigestState) (m : List Byte) :
    (absorb S m).words = (absorbedBlocks S m).foldl md5Compress S.words := rfl

theorem absorb_count (S : DigestState) (m : List Byte) :
    (absorb S m).count = S.count + BitVec.ofNat 64 m.length := rfl

/-- Absorb compresses as many blocks as the buffered bytes followed by the chunk complete (R64). -/
theorem absorbedBlocks_length (S : DigestState) (m : List Byte) :
    (absorbedBlocks S m).length = (S.index + m.length) / 64 := by
  rw [absorbedBlocks_eq, windows_length]

/-- A chunk that does not fill the buffer compresses nothing (R63). -/
theorem absorb_words_short {S : DigestState} {m : List Byte} (h : S.index + m.length < 64) :
    (absorb S m).words = S.words := by
  rw [absorb_words, absorbedBlocks_eq, Nat.div_eq_of_lt h, windows, List.foldl_nil]

/-- Byte `k` of the buffer after a chunk that fills it: the remainder from index 0 on, and behind it the bytes of the
first filled block (R63, R11). -/
theorem getElem_absorb_buffer_long {S : DigestState} {m : List Byte} (h : 64 ≤ S.index + m.length) {k : Nat}
    (hk : k < 64) : (absorb S m).buffer[k] =
      if k < (S.index + m.length) % 64 then (S.validPrefix ++ m).getD (64 * ((S.index + m.length) / 64) + k) 0
      else (S.validPrefix ++ m).getD k 0 := by
  have hlen : (absorb S m).validPrefix.length = (S.index + m.length) % 64 := by
    rw [validPrefix_length, absorb_index]
  simp only [absorb_buffer_long S m h, getElem_blockWrite _ _ _ _ hk, getElem_blockOf _ _ hk, hlen, Nat.zero_le,
    true_and, Nat.zero_add, Nat.sub_zero]
  rw [absorb_validPrefix, List.getD_eq_getElem?_getD, List.getElem?_drop, ← List.getD_eq_getElem?_getD]

/-- Settles O35: the chunk is written behind the buffered bytes, or the remainder over the first filled block. -/
theorem absorbByteByByte : Obligations.AbsorbByteByByte := by
  intro S m i n all
  refine ⟨absorb_count_toNat S m, fun hshort => ⟨absorb_words_short hshort, fun k hk => ?_⟩,
    fun hlong => ⟨?_, fun k hk => getElem_absorb_buffer_long hlong hk⟩⟩
  · simp only [absorb_buffer_short S m hshort]
    exact getElem_blockWrite S.buffer i m k hk
  · rw [absorb_words, absorbedBlocks_eq]
    rfl

/-! ## Absorb over chunks -/

/-- Absorbing two chunks in turn is absorbing them at once, but for the stale bytes of the buffer (R64): the blocks of
the whole input are those of its first chunk and then those of what the first chunk left open. -/
theorem absorb_absorb (S : DigestState) (x y : List Byte) :
    (absorb (absorb S x) y).words = (absorb S (x ++ y)).words ∧
    (absorb (absorb S x) y).count = (absorb S (x ++ y)).count ∧
    (absorb (absorb S x) y).validPrefix = (absorb S (x ++ y)).validPrefix := by
  refine ⟨?words, ?count, ?validPrefix⟩
  case words =>
    simp only [absorb_words, absorbedBlocks_eq_completeBlocks]
    rw [absorb_validPrefix_eq_openTail, ← List.append_assoc, completeBlocks_append (S.validPrefix ++ x) y,
      List.foldl_append]
  case count => simp only [absorb_count, List.length_append, BitVec.ofNat_add, BitVec.add_assoc]
  case validPrefix =>
    simp only [absorb_validPrefix_eq_openTail]
    rw [← openTail_append, List.append_assoc]

/-- Settles O36, by induction on the chunks: the first joins the concatenation of the others. -/
theorem chunkingInvariance : Obligations.ChunkingInvariance := by
  intro S ms
  induction ms generalizing S with
  | nil => simp only [List.foldl_nil, List.flatten_nil, absorb_nil, and_self]
  | cons m ms ih =>
    obtain ⟨hwords, hcount, hprefix⟩ := absorb_absorb S m ms.flatten
    rw [List.foldl_cons, List.flatten_cons, ← hwords, ← hcount, ← hprefix]
    exact ih (absorb S m)

/-! ## UPDATE -/

/-- Settles O38: an UPDATE within bounds completes, and one beyond them has the fault effect alone. -/
theorem updateAbsorbsExactlyItsSlice : Obligations.UpdateAbsorbsExactlyItsSlice := by
  intro s off len
  refine ⟨fun hbound => ?_, fun hover =>
    exec_of_faults (i := .update off len) (f := .precondition) ⟨rfl, hover⟩⟩
  have hnf : ∀ f, ¬ commandFaults (.update off len) s f := fun f ⟨_, hover⟩ => absurd hover (not_lt.2 hbound)
  rw [exec_eq_completedState hnf, ← completedState_update_dvalid off len s]
  rfl

/-- The evaluations of an UPDATE within bounds (R64, R101). -/
theorem compressions_update_of_le {s : State} {off len : Nat} (h : off + len ≤ 4096) :
    compressions (.update off len) s = (s.live.index + len) / 64 := by
  rw [compressions, chunkSlice_ok s off len h, updateCompressions, absorbedBlocks_length, List.length_map,
    List.length_range]

/-- Settles O49: the bound 64 holds since at most 63 bytes are buffered and at most 4096 arrive. -/
theorem compressionCounts : Obligations.CompressionCounts := by
  refine ⟨absorbedBlocks_length, fun s off len => ⟨fun hbound => ?_, fun hover => ?_⟩⟩
  · have hindex := index_lt s.live
    have hcount := compressions_update_of_le (s := s) hbound
    exact ⟨hcount, by omega⟩
  · rw [compressions, chunkSlice_error s off len hover, updateCompressions]

/-! ## INIT -/

/-- The fresh buffer is 64 zeros (R11). -/
theorem zeroBlock_eq_replicate : zeroBlock = Vector.replicate 64 0 := by
  refine Vector.ext fun k hk => ?_
  rw [zeroBlock, getElem_blockOf _ _ hk, Vector.getElem_replicate, List.getD_nil]

/-- The one word of INIT (R50). -/
theorem encode_init : encode .init = 0x10000000 := by decide

/-- INIT's word is the one that decodes to INIT (R44, R46). -/
theorem decodeWord_eq_init_iff (w : Word) : decodeWord w = .command .init ↔ w = 0x10000000 := by
  rw [← encode_init]
  constructor
  · exact fun h => (wellFormed_and_encode_of_decodeWord h).2.symm
  · rintro rfl
    exact decodeWord_encode rfl

/-- A word of opcode 1 decodes to no command but INIT (R44). -/
theorem eq_init_of_fieldOp {w : Word} {i : Instr} (h : decodeWord w = .command i) (hop : fieldOp w = 1) :
    i = .init := by
  obtain ⟨-, hfields⟩ := fields_of_decodeWord h
  have hi : (commandFields i).1 = 1 := hfields ▸ hop
  cases i with
  | init => rfl
  | _ => simp [commandFields] at hi

/-- A word of opcode 1 other than INIT's is illegal (R47). -/
theorem illegal_of_fieldOp_one {w : Word} (hop : fieldOp w = 1) (hw : w ≠ 0x10000000) :
    ∃ why, decodeWord w = .illegal why := by
  cases hdecode : decodeWord w with
  | illegal why => exact ⟨why, rfl⟩
  | command i => exact absurd ((decodeWord_eq_init_iff w).1 (eq_init_of_fieldOp hdecode hop ▸ hdecode)) hw

/-- Settles O37: INIT completes with the fresh state, and its word is the only legal one of its opcode. -/
theorem initReinitialisesLiveAlone : Obligations.InitReinitialisesLiveAlone := by
  refine ⟨fun s => ?_, decodeWord_eq_init_iff, fun w s hop hw => ?_⟩
  · rw [← zeroBlock_eq_replicate]
    rfl
  · have hfield : fieldOp w = 1 := by rw [fieldOp, ← toNat_extractLsb'_eq_bitField, hop]; rfl
    obtain ⟨why, hillegal⟩ := illegal_of_fieldOp_one hfield hw
    exact issueCommand_of_illegal hillegal s

end Sys2Proof.Machine
end

section
/-! PEEK: the padding and the length field, the snapshot they finalize, and the digest and hex text published of it. -/

namespace Sys2Proof.Machine

/-! ## The padding -/

/-- The padding brings the length to 56 modulo 64: within this block, or in the next one (R70). -/
theorem index_add_padLength {idx : Nat} (h : idx < 64) : idx + padLength idx = if idx < 56 then 56 else 120 := by
  unfold padLength
  split <;> omega

/-- The byte 0x80 is always there, since the pad length is never 0 (R70, R71). -/
theorem padding_length {idx : Nat} (h : idx < 64) : (padding idx).length = padLength idx := by
  have hsum := index_add_padLength h
  rw [padding, List.length_cons, List.length_replicate]
  split at hsum <;> omega

/-- Settles O40: every range follows from the length that the padding reaches. -/
theorem padLengthRanges : Obligations.PadLengthRanges := by
  intro idx h
  have hsum := index_add_padLength h
  refine ⟨rfl, ?_, fun hlow => ?_, fun hhigh => ?_, rfl⟩
  · split at hsum <;> omega
  · rw [if_pos hlow] at hsum
    omega
  · rw [if_neg (not_lt.2 hhigh)] at hsum
    omega

/-! ## The length field -/

@[simp] theorem lengthField_length (c : Count) : (lengthField c).length = 8 := rfl

/-- Byte `k` of a count as a number (00_scope §5). -/
theorem toNat_byteOfCount (c : Count) (k : Nat) : (byteOfCount c k).toNat = c.toNat / 2 ^ (8 * k) % 256 := by
  rw [byteOfCount, BitVec.toNat_setWidth, BitVec.toNat_ushiftRight, Nat.shiftRight_eq_div_pow]

/-- Byte `k` of the length field is byte `k` of the bit count (R69). -/
theorem getD_lengthField (c : Count) {k : Nat} (h : k < 8) : (lengthField c).getD k 0 = byteOfCount (c * 8) k :=
  getD_bytesLe64 (c * 8) k h

/-- The length field as the list of the bit count's bytes (R69). -/
theorem lengthField_eq_map (c : Count) : lengthField c = (List.range 8).map fun k => byteOfCount (c * 8) k := by
  refine List.ext_getElem (by simp) fun k h _ => ?_
  rw [List.getElem_map, List.getElem_range, ← getD_lengthField c h, List.getD_eq_getElem _ _ h]

/-- Settles O41: the bytes are those of the bit count, and bits 63:61 of the count leave it by the factor 8. -/
theorem lengthFieldIsTheBitCount : Obligations.LengthFieldIsTheBitCount := by
  refine ⟨fun c => ⟨lengthField_length c, fun k hk => ?_⟩, fun _ _ => lengthField_congr⟩
  rw [getD_lengthField c hk, toNat_byteOfCount, BitVec.toNat_mul, show (8 : Count).toNat = 8 from rfl]

/-! ## The finalized snapshot -/

/-- The count of the finalized snapshot: both feeds further (R71). -/
theorem finalize_count_toNat (S : DigestState) :
    (finalize S).count.toNat = (S.count.toNat + padLength S.index + 8) % 2 ^ 64 := by
  rw [finalize, absorb_count_toNat, absorb_count_toNat, padding_length (index_lt S), lengthField_length,
    Nat.mod_add_mod]

/-- The padding feed completes a block only where the padding runs into the next one; the length feed always
completes one (R71). -/
theorem finalizeCompressions_eq (S : DigestState) : finalizeCompressions S = if S.index < 56 then 1 else 2 := by
  have hsum := index_add_padLength (index_lt S)
  rw [finalizeCompressions, absorbedBlocks_length, absorbedBlocks_length, absorb_index, padding_length (index_lt S),
    lengthField_length, hsum]
  split <;> rfl

/-- Settles O43: the index, the padding and the length field fill one block or two. -/
theorem finalizeEndsOnABlockBoundary : Obligations.FinalizeEndsOnABlockBoundary := by
  intro S
  refine ⟨?_, finalize_count_toNat S, finalizeCompressions_eq S⟩
  have hsum := index_add_padLength (index_lt S)
  have hindex : S.index = S.count.toNat % 64 := rfl
  rw [finalize_count_toNat]
  split at hsum <;> omega

/-! ## The digest and its hex text -/

/-- Where each word stands in the digest bytes (R72). -/
theorem getD_wordBytes (w : Words) {k : Nat} (h : k < 4) :
    (wordBytes w).getD k 0 = byteOfWord w.a k ∧ (wordBytes w).getD (4 + k) 0 = byteOfWord w.b k ∧
    (wordBytes w).getD (8 + k) 0 = byteOfWord w.c k ∧ (wordBytes w).getD (12 + k) 0 = byteOfWord w.d k := by
  simp only [byteOfWord, ← getD_bytesLe32 _ k h]
  obtain rfl | rfl | rfl | rfl : k = 0 ∨ k = 1 ∨ k = 2 ∨ k = 3 := by omega
  all_goals exact ⟨rfl, rfl, rfl, rfl⟩

/-- The characters of byte `k`: its high nibble, then its low one (R73). -/
theorem getD_hexChars {bs : List Byte} {k : Nat} (h : k < bs.length) :
    (hexChars bs).getD (2 * k) 0 = hexChar ((bs.getD k 0 >>> 4).setWidth 4) ∧
    (hexChars bs).getD (2 * k + 1) 0 = hexChar ((bs.getD k 0).setWidth 4) := by
  induction bs generalizing k with
  | nil => exact absurd h (Nat.not_lt_zero k)
  | cons b bs ih =>
    cases k with
    | zero => exact ⟨rfl, rfl⟩
    | succ k => exact ih (Nat.lt_of_succ_lt_succ h)

/-- The lowercase hexadecimal digits in order (R73). -/
def hexAlphabet : List Byte :=
  [0x30, 0x31, 0x32, 0x33, 0x34, 0x35, 0x36, 0x37, 0x38, 0x39, 0x61, 0x62, 0x63, 0x64, 0x65, 0x66]

/-- `hexchar(v)` is digit `v` (R73). -/
theorem hexChar_eq_getD_hexAlphabet : ∀ v : BitVec 4, hexChar v = hexAlphabet.getD v.toNat 0 := by decide

/-- The high nibble of a byte as a number. -/
theorem toNat_highNibble (b : Byte) : ((b >>> 4).setWidth 4).toNat = b.toNat / 16 := by
  rw [BitVec.toNat_setWidth, BitVec.toNat_ushiftRight, Nat.shiftRight_eq_div_pow]
  omega

/-- HEX[2k] and HEX[2k + 1] are the digits of DIGEST[k] (R73). -/
theorem getD_hexOfDigest (d : Vector Byte 16) {k : Nat} (h : k < 16) :
    (hexOfDigest d).toList.getD (2 * k) 0 = hexAlphabet.getD ((d.toList.getD k 0).toNat / 16) 0 ∧
    (hexOfDigest d).toList.getD (2 * k + 1) 0 = hexAlphabet.getD ((d.toList.getD k 0).toNat % 16) 0 := by
  obtain ⟨hhigh, hlow⟩ := getD_hexChars (bs := d.toList) (k := k) (by rwa [Vector.length_toList])
  rw [toList_hexOfDigest, hhigh, hlow, hexChar_eq_getD_hexAlphabet, hexChar_eq_getD_hexAlphabet, toNat_highNibble,
    BitVec.toNat_setWidth]
  exact ⟨rfl, rfl⟩

/-! ## PEEK -/

/-- PEEK completes in every state: no fault of R82 is its own (R68). -/
theorem exec_peek (s : State) : exec .peek s = .next (completedState .peek s) :=
  exec_eq_completedState fun _ h => h

/-- The snapshot PEEK leaves in FIN, with both feeds written out (R69 to R71). -/
theorem completedState_peek_fin (s : State) : (completedState .peek s).fin =
    absorb (absorb s.live (0x80 :: List.replicate (padLength s.live.index - 1) 0))
      ((List.range 8).map fun k => byteOfCount (s.live.count * 8) k) := by
  rw [← lengthField_eq_map]
  rfl

/-- Settles O42: PEEK publishes the words of the snapshot it leaves in FIN. -/
theorem peekFinalizesASnapshotAndPublishes : Obligations.PeekFinalizesASnapshotAndPublishes := fun s =>
  ⟨completedState .peek s, exec_peek s, completedState_peek_fin s,
    fun _ hk => getD_wordBytes (finalize s.live).words hk, fun _ hk => getD_hexOfDigest (digestOf s.live) hk, rfl⟩

/-- A second PEEK finalizes the same LIVE again (R74). -/
theorem completedState_peek_idem (s : State) :
    completedState .peek (completedState .peek s) = completedState .peek s := rfl

/-- PEEK carries the same stream on (R74). -/
theorem sameStream_completedState_peek (s : State) : sameStream s (completedState .peek s) :=
  ⟨completedState_live nofun nofun nofun, completedState_ramByte nofun⟩

/-- No command touches the model's own fields. -/
theorem sameHostSide_completedState (i : Instr) (s : State) : sameHostSide s (completedState i s) :=
  ⟨completedState_pending i s, completedState_pc i s, completedState_response i s, completedState_ramDraw i s⟩

/-- Settles O46: the state PEEK leaves has the LIVE that PEEK reads. -/
theorem peekIsIdempotentAndKeepsTheStream : Obligations.PeekIsIdempotentAndKeepsTheStream := by
  intro s t h
  obtain rfl : completedState .peek s = t := Host.Outcome.next.inj ((exec_peek s).symm.trans h)
  refine ⟨?_, sameStream_completedState_peek s, sameHostSide_completedState .peek s⟩
  rw [exec_peek, completedState_peek_idem]

end Sys2Proof.Machine
end

section
/-! State transfer: the blob of LIVE that EXPORT leaves in XFER, and what RESTORE and COMPARE make of XFER. -/

namespace Sys2Proof.Machine

/-! ## XFER holding a blob -/

/-- The blob of a DigestState has a correct header (R75, R76). -/
theorem blobHeaderOk_blob (S : DigestState) : blobHeaderOk (blob S) = true := rfl

/-- What the commands read of XFER is determined by its 92 bytes. -/
theorem readXfer_congr {s t : State} (h : ∀ k < 92, t.ramByte (0x0100 + k) = s.ramByte (0x0100 + k)) :
    t.readXfer = s.readXfer := by
  simp only [State.readXfer, ramBytes_eq_map]
  exact List.map_congr_left fun k hk => h k (List.mem_range.1 hk)

section readXferBlob
variable {s : State} {S : DigestState} (h : s.readXfer = blob S)
include h

theorem ramByte_of_readXfer_eq_blob {k : Nat} (hk : k < 92) : s.ramByte (0x0100 + k) = (blob S).getD k 0 := by
  rw [← getD_readXfer s k hk, h]

theorem not_malformedHeader_of_readXfer_eq_blob : ¬ malformedHeader s := by
  rw [← blobHeaderOk_iff, h, blobHeaderOk_blob]

/-- Where XFER holds a blob, it holds each part of the state at its place (R75). -/
theorem xferHolds_of_readXfer_eq_blob : xferHolds s S := by
  have hbyte : ∀ i k, i + k < 92 → s.ramByte (0x0100 + i + k) = (blob S).getD (i + k) 0 := fun i k hik => by
    rw [Nat.add_assoc, ramByte_of_readXfer_eq_blob h hik]
  obtain ⟨hwords, hbuffer, hcount⟩ := getD_blob S
  refine ⟨fun k hk => ?words, fun k hk => ?buffer, fun k hk => ?count⟩
  case words =>
    obtain ⟨ha, hb, hc, hd⟩ := hwords k hk
    exact ⟨(hbyte 4 k (by omega)).trans ha, (hbyte 8 k (by omega)).trans hb, (hbyte 12 k (by omega)).trans hc,
      (hbyte 16 k (by omega)).trans hd⟩
  case buffer => exact (hbyte 20 k (by omega)).trans (hbuffer k hk)
  case count => exact (hbyte 84 k (by omega)).trans (hcount k hk)

/-- Reading a blob back gives the state it was written of (R80). -/
theorem unblob_readXfer_of_eq_blob : unblob s.readXfer = S :=
  ((xferHolds_iff s S).1 (xferHolds_of_readXfer_eq_blob h)).symm

end readXferBlob

/-! ## EXPORT -/

/-- EXPORT completes in every state: no fault of R82 is its own (R77). -/
theorem exec_exportState (s : State) : exec .exportState s = .next (completedState .exportState s) :=
  exec_eq_completedState fun _ h => h

/-- XFER after EXPORT is the blob of LIVE (R77). -/
theorem readXfer_completedState_exportState (s : State) : (completedState .exportState s).readXfer = blob s.live := by
  refine List.ext_getElem (by rw [blob_length]; exact ramBytes_length _ _ _) fun k hread hblob => ?_
  have hk : k < 92 := by rwa [blob_length] at hblob
  rw [← List.getD_eq_getElem _ 0 hread, ← List.getD_eq_getElem _ 0 hblob, getD_readXfer _ _ hk,
    completedState_exportState_ramByte, if_pos (by omega), Nat.add_sub_cancel_left]

/-- EXPORT changes nothing but the RAMs and ERR (R77). -/
theorem completedState_exportState_frame (s : State) :
    completedState .exportState s = { s with ram := (completedState .exportState s).ram, err := 0 } := by
  rw [completedState_exportState_ram]
  rfl

/-- Settles O50: XFER holds the blob of LIVE, and EXPORT writes no RAM byte outside XFER. -/
theorem exportWritesTheBlobOfLive : Obligations.ExportWritesTheBlobOfLive := by
  intro s
  have hblob := readXfer_completedState_exportState s
  obtain ⟨h0, h1, h2, h3⟩ := header_blob s.live
  exact ⟨_, exec_exportState s,
    (ramByte_of_readXfer_eq_blob hblob (k := 0) (by decide)).trans h0,
    (ramByte_of_readXfer_eq_blob hblob (k := 1) (by decide)).trans h1,
    (ramByte_of_readXfer_eq_blob hblob (k := 2) (by decide)).trans h2,
    (ramByte_of_readXfer_eq_blob hblob (k := 3) (by decide)).trans h3,
    xferHolds_of_readXfer_eq_blob hblob, fun a ha => completedState_ramByte_outside_xfer (by omega),
    completedState_exportState_frame s⟩

/-! ## RESTORE and COMPARE -/

section correctHeader
variable {s : State} (h : ¬ malformedHeader s)
include h

/-- RESTORE 92 on a correct header completes (R78). -/
theorem exec_restore_of_header : exec (.restore 92) s = .next (completedState (.restore 92) s) :=
  exec_eq_completedState fun _ ⟨_, hf⟩ => hf.elim (absurd rfl) h

/-- COMPARE 92 on a correct header completes (R79). -/
theorem exec_compare_of_header : exec (.compare 92) s = .next (completedState (.compare 92) s) :=
  exec_eq_completedState fun _ ⟨_, hf⟩ => hf.elim (absurd rfl) h

end correctHeader

/-- The EQ that COMPARE 92 writes: whether XFER holds LIVE (R79). -/
theorem completedState_compare_eq_iff (len : Nat) (s : State) :
    (completedState (.compare len) s).eq = true ↔ xferHolds s s.live := by
  rw [xferHolds_iff, eq_comm (a := s.live)]
  exact sameDigestState_iff _ _

/-- Settles O51: RESTORE takes LIVE from XFER or has the fault effect alone. -/
theorem restoreInstallsWhatXferHolds : Obligations.RestoreInstallsWhatXferHolds := fun s =>
  ⟨fun h => ⟨_, exec_restore_of_header h, (xferHolds_iff s _).2 rfl, rfl⟩,
    fun len hf => exec_of_faults (i := .restore len) (f := .malformedState) ⟨rfl, hf⟩⟩

/-- Settles O52: COMPARE tests LIVE against XFER or has the fault effect alone. -/
theorem compareTestsAllOfLive : Obligations.CompareTestsAllOfLive := fun s =>
  ⟨fun h => ⟨_, exec_compare_of_header h, completedState_compare_eq_iff 92 s, rfl⟩,
    fun len hf => exec_of_faults (i := .compare len) (f := .malformedState) ⟨rfl, hf⟩⟩

/-! ## Round trip and resumption -/

/-- RESTORE 92 where XFER holds the blob of a state makes that state LIVE (R78, R80). -/
theorem exec_restore_of_readXfer_eq_blob {s : State} {S : DigestState} (h : s.readXfer = blob S) :
    exec (.restore 92) s = .next { s with live := S, dvalid := false, err := 0 } := by
  rw [exec_restore_of_header (not_malformedHeader_of_readXfer_eq_blob h), completedState, unblob_readXfer_of_eq_blob h]
  rfl

/-- Settles O53: after EXPORT, XFER holds the blob of LIVE, and LIVE is still the state EXPORT wrote. -/
theorem exportThenRestoreIsTheIdentity : Obligations.ExportThenRestoreIsTheIdentity := by
  intro s
  have hblob := readXfer_completedState_exportState s
  refine ⟨_, exec_exportState s, ⟨_, exec_restore_of_readXfer_eq_blob hblob, rfl, rfl⟩,
    ⟨_, exec_compare_of_header (not_malformedHeader_of_readXfer_eq_blob hblob), ?_⟩⟩
  exact (completedState_compare_eq_iff 92 _).2 (xferHolds_of_readXfer_eq_blob hblob)

/-- Settles O54: the other engine's XFER holds the same blob, so RESTORE gives it the LIVE that holds the input, which
absorb extends. -/
theorem resumedStreamHashesLikeTheWhole : Obligations.ResumedStreamHashesLikeTheWhole := by
  intro s t e m x hm hexport hbytes
  obtain rfl : completedState .exportState s = t := Host.Outcome.next.inj ((exec_exportState s).symm.trans hexport)
  have hblob : e.readXfer = blob s.live := (readXfer_congr hbytes).trans (readXfer_completedState_exportState s)
  exact ⟨_, exec_restore_of_readXfer_eq_blob hblob, rfl, (hm.absorb_append x).digestOf_eq_md5⟩

end Sys2Proof.Machine
end

section
/-! The exceptions (60_exceptions): no host operation stops the machine, a fault writes ERR and FAULTSEEN alone, and ERR
stays at a named code with FAULTSEEN beside it. -/

namespace Sys2Proof.Machine

/-! ## When a step stops -/

/-- Settles O9: the end of the run is the one stop, since every host operation answers a next state. -/
theorem stepStopsOnlyAtTheEndOfTheRun : Obligations.StepStopsOnlyAtTheEndOfTheRun := by
  refine fun s => ⟨nextOp_nil s, fun hpending => ?_⟩
  obtain ⟨op, rest, hcons⟩ := List.exists_cons_of_ne_nil hpending
  rw [step, nextOp_cons s hcons]
  exact performOp_next op _

/-! ## What a fault writes, and what ERR is otherwise -/

/-- A command that completes writes 0 to ERR (R22). -/
@[simp] theorem completedState_err (i : Instr) (s : State) : (completedState i s).err = 0 := by cases i <;> rfl

/-- Settles O19: a fault has the fault effect with its code of R82, and any other command leaves its `completedState`. -/
theorem faultsWriteErrAndFaultSeenAlone : Obligations.FaultsWriteErrAndFaultSeenAlone := by
  refine ⟨fun i s => ⟨fun f hf => ?faults, fun hnf => ?completes⟩, fun w s why hillegal => ?illegal⟩
  case faults =>
    rw [exec_of_faults hf]
    cases f <;> rfl
  case completes =>
    exact ⟨_, exec_eq_completedState hnf, completedState_err i s, completedState_faultSeen i s⟩
  case illegal => exact issueCommand_of_illegal hillegal s

/-! ## ERR and FAULTSEEN along every step -/

/-- The codes of R82 are at most 3. -/
theorem toNat_faultCode_le (f : EngineFault) : (faultCode f).toNat ≤ 3 := by cases f <;> decide

/-- With ERR 0 the invariant holds, whatever FAULTSEEN is. -/
theorem errConsistent_of_err_eq_zero {s : State} (h : s.err = 0) : errConsistent s :=
  ⟨by simp [h], fun hne => absurd h hne⟩

/-- The fault effect puts a code of R82 in ERR and sets FAULTSEEN (R84). -/
theorem errConsistent_raiseFault (s : State) (f : EngineFault) : errConsistent (s.raiseFault f) :=
  ⟨toNat_faultCode_le f, fun _ => rfl⟩

/-- Settles O25, by the cases of a host operation: a fault sets both fields, a completing command and the reset write 0
to ERR, and no other operation touches either. -/
theorem stepKeepsErrConsistent : Obligations.StepKeepsErrConsistent := by
  intro s t hs h
  obtain ⟨op, rest, _, hop⟩ := step_cases h
  exact performOp_preserves (P := errConsistent) hop
    (hrespond := fun _ _ hu => hu) (hstore := fun _ _ _ _ _ hu => hu)
    (hfault := fun u f _ => errConsistent_raiseFault u f)
    (hcompleted := fun i u _ => errConsistent_of_err_eq_zero (completedState_err i u))
    (hreset := fun _ _ _ => errConsistent_of_err_eq_zero rfl) hs

end Sys2Proof.Machine
end

section
/-! Hardware reset (70_reset_and_hazards): the values of R96, the invariants they give, and the digest of a fresh LIVE. -/

namespace Sys2Proof.Machine

/-! ## The values of reset -/

/-- A fresh DigestState with its values written out (R96, R10). -/
theorem fresh_eq : DigestState.fresh =
    ⟨⟨0x67452301, 0xefcdab89, 0x98badcfe, 0x10325476⟩, Vector.replicate 64 0, 0⟩ := rfl

/-- With every flag and ERR 0 and no byte buffered, the STATUS word is 0 (R21). -/
theorem status_eq_zero {s : State} (herr : s.err = 0) (hdvalid : s.dvalid = false) (heq : s.eq = false)
    (hfaultSeen : s.faultSeen = false) (hindex : s.live.index = 0) : s.status = 0 := by
  rw [State.status, herr, hdvalid, heq, hfaultSeen, hindex]
  decide

/-- The STATUS word after hardware reset (R96). -/
@[simp] theorem hardwareReset_status (s : State) : s.hardwareReset.status = 0 := status_eq_zero rfl rfl rfl rfl rfl

/-- The STATUS word of the reset state (R96). -/
@[simp] theorem reset_status : State.reset.status = 0 := status_eq_zero rfl rfl rfl rfl rfl

/-- Settles O28: the operation installs the values of the reset state, and leaves the sequence and the pc. -/
theorem hardwareResetValues : Obligations.HardwareResetValues :=
  ⟨fun s => ⟨s.hardwareReset, rfl, hardwareReset_pending s, hardwareReset_pc s, hardwareReset_status s,
      (hardwareReset_live s).trans fresh_eq, hardwareReset_digest s, hardwareReset_hex s, hardwareReset_err s,
      hardwareReset_dvalid s, hardwareReset_eq s, hardwareReset_faultSeen s⟩,
    reset_status, fresh_eq, rfl, rfl⟩

/-! ## The invariants at reset -/

/-- Settles O27: at reset no RAM byte is listed, ERR is 0, and DVALID is 0, so nothing is published. -/
theorem resetMeetsTheInvariants : Obligations.ResetMeetsTheInvariants :=
  ⟨⟨List.Pairwise.nil, nofun⟩, errConsistent_of_err_eq_zero rfl, nofun⟩

/-! ## The digest of the empty input -/

/-- The empty input is padded to one block: the byte 0x80, then zeros, with the length field 0 at the end (R69, R70). -/
theorem completeBlocks_padded_nil : completeBlocks (padded []) = [blockOf [0x80]] := by decide +kernel

/-- The words of the block of the empty input. -/
theorem schedule_blockOf_0x80 : schedule (blockOf [0x80]) = 0x80 :: List.replicate 15 0 := by decide +kernel

/-- The working values after step 63 on the block of the empty input. -/
theorem md5Steps_blockOf_0x80 : md5Steps (0x80 :: List.replicate 15 0) initialWords 64 =
    ⟨0x7246fad3, 0x14e45506, 0xff4ea3eb, 0x6e10a476⟩ := by
  decide +kernel

/-- The words of the empty input's digest: the one block, with its feed-forward. -/
theorem foldBlocks_padded_nil :
    foldBlocks (padded []) = ⟨0xd98c1dd4, 0x04b2008f, 0x980980e9, 0x7e42f8ec⟩ := by
  rw [foldBlocks, completeBlocks_padded_nil, List.foldl_cons, List.foldl_nil, md5Compress, schedule_blockOf_0x80,
    md5Steps_blockOf_0x80]
  decide

/-- The empty-input digest (95_test_vectors §1, S1). -/
theorem md5_nil : md5 [] =
    [0xd4, 0x1d, 0x8c, 0xd9, 0x8f, 0x00, 0xb2, 0x04, 0xe9, 0x80, 0x09, 0x98, 0xec, 0xf8, 0x42, 0x7e] := by
  rw [md5, foldBlocks_padded_nil]
  decide

/-- Settles O45: a fresh LIVE holds the empty input, and PEEK publishes the MD5 of the input held. -/
theorem freshPeekGivesTheEmptyDigest : Obligations.FreshPeekGivesTheEmptyDigest := by
  intro s hfresh
  obtain ⟨t, hexec, hdigest, -⟩ := peekPublishesTheMd5OfTheInput s [] (hfresh ▸ represents_fresh)
  exact ⟨t, hexec, hdigest.trans md5_nil⟩

end Sys2Proof.Machine
end
